-- ==== Sys2Proof/Word.lean ====
section
/-! DEFINITION. The word types of P1C-CORE (00_scope.md rules R10, R11 and R13): an unsigned Byte and an unsigned 32-bit Word. -/

namespace Sys2Proof

/-- An 8-bit unsigned value (rule R13). -/
abbrev Byte := BitVec 8

/-- A 32-bit unsigned value: a register of the window, a command word, a round-key word (rule R13). -/
abbrev Word := BitVec 32

end Sys2Proof
end

