-- ==== Sys2Proof/Syntax.lean ====
section
/-! DEFINITION. The commands of P1C-CORE: one constructor for each of the 17 rows of spec/opcode_table.json. -/

namespace Sys2Proof

/-- A command (30_encoding.md rule R103). `a` and `b` are the byte operands A and B. `r` is the round index R, a Nat because
it only names a round key (rule R102); the field it is encoded in bounds it (`Instr.wellFormed`). Every other operand is
implicit. -/
inductive Instr where
  /-- No operation (rule R125). -/
  | nop
  /-- RESULT <- sbox(A) (rule R126). -/
  | sbox (a : Byte)
  /-- RESULT <- invSbox(A) (rule R127). -/
  | isbox (a : Byte)
  /-- RESULT <- gfMul(A, B) (rule R128). -/
  | gfmul (a b : Byte)
  /-- STATE <- bitshiftForward(STATE) (rule R140). -/
  | bsf
  /-- STATE <- bitshiftInverse(STATE) (rule R141). -/
  | bsi
  /-- STATE <- transpose(STATE) (rule R142). -/
  | trn
  /-- W <- KeySchedule(KEY) (rule R161). -/
  | kexp
  /-- STATE <- subBytes(STATE) (rule R180). -/
  | subb
  /-- STATE <- invSubBytes(STATE) (rule R181). -/
  | isubb
  /-- STATE <- shiftRows(STATE) (rule R182). -/
  | shrows
  /-- STATE <- invShiftRows(STATE) (rule R183). -/
  | ishrows
  /-- STATE <- mixColumns(STATE) (rule R184). -/
  | mixcol
  /-- STATE <- invMixColumns(STATE) (rule R185). -/
  | imixcol
  /-- STATE <- addRoundKey(STATE, RK(R)) (rule R186). -/
  | ark (r : Nat)
  /-- The encrypt pipeline on STATE and KEY (rule R202). -/
  | enc
  /-- The decrypt pipeline on STATE and KEY (rule R204). -/
  | dec
  deriving DecidableEq, Repr

end Sys2Proof
end

