-- ==== Sys2Proof/WellFormed.lean ====
section
/-! DEFINITION. Which commands can be written as a command word: the operands fit the fields of 30_encoding.md rule R100. -/

namespace Sys2Proof

/-- The round index fits the four bits of CMD[11:8]: 0 to 15 (rules R100 and R107; 15 is encodable, and out of range only when
performed, rule R105). The byte operands fit their fields by their type. -/
def Instr.wellFormed : Instr → Bool
  | .nop | .sbox _ | .isbox _ | .gfmul _ _ | .bsf | .bsi | .trn | .kexp | .subb | .isubb | .shrows | .ishrows
  | .mixcol | .imixcol | .enc | .dec => true
  | .ark r => decide (r < 16)

end Sys2Proof
end

