-- ==== Sys2Proof/Decode.lean ====
section
/-! DEFINITION. The decoder of a command word, total on the 2^32 words and rejecting by name, and the encoder
(30_encoding.md). -/

namespace Sys2Proof

/-- Why a command word is not legal (30_encoding.md rule R104). Each of them ends in the same error, ILLEGAL_CMD. -/
inductive Illegal where
  /-- (a) fails: OP is above 0x10. -/
  | reservedOpcode
  /-- (b) fails: RSV is not 0. -/
  | reservedField
  /-- (c) fails: R, A or B is not 0 and the opcode does not use it. -/
  | unusedField
  deriving DecidableEq, Repr

/-! The fields of a command word (rule R100). -/

/-- OP = CMD[7:0]. -/
def fieldOP (c : Word) : Byte := c.extractLsb' 0 8
/-- R = CMD[11:8]. -/
def fieldR (c : Word) : BitVec 4 := c.extractLsb' 8 4
/-- RSV = CMD[15:12]. -/
def fieldRSV (c : Word) : BitVec 4 := c.extractLsb' 12 4
/-- A = CMD[23:16]. -/
def fieldA (c : Word) : Byte := c.extractLsb' 16 8
/-- B = CMD[31:24]. -/
def fieldB (c : Word) : Byte := c.extractLsb' 24 8

/-! The "uses" column of rule R103. -/

/-- ARK alone uses R. -/
def usesR (op : Byte) : Bool := op == 0x0E
/-- SBOX, ISBOX and GFMUL use A. -/
def usesA (op : Byte) : Bool := op == 0x01 || op == 0x02 || op == 0x03
/-- GFMUL alone uses B. -/
def usesB (op : Byte) : Bool := op == 0x03

/-- Rule R104 (c): each of R, A and B is 0 unless the opcode uses it. -/
def unusedFieldsZero (c : Word) : Bool :=
  (usesR (fieldOP c) || fieldR c == 0) && (usesA (fieldOP c) || fieldA c == 0) && (usesB (fieldOP c) || fieldB c == 0)

/-- The command of an opcode, its operands taken from the word (rules R102 and R103). -/
def decodeOpcode (c : Word) : Except Illegal Instr :=
  match (fieldOP c).toNat with
  | 0x00 => .ok .nop
  | 0x01 => .ok (.sbox (fieldA c))
  | 0x02 => .ok (.isbox (fieldA c))
  | 0x03 => .ok (.gfmul (fieldA c) (fieldB c))
  | 0x04 => .ok .bsf
  | 0x05 => .ok .bsi
  | 0x06 => .ok .trn
  | 0x07 => .ok .kexp
  | 0x08 => .ok .subb
  | 0x09 => .ok .isubb
  | 0x0A => .ok .shrows
  | 0x0B => .ok .ishrows
  | 0x0C => .ok .mixcol
  | 0x0D => .ok .imixcol
  | 0x0E => .ok (.ark (fieldR c).toNat)
  | 0x0F => .ok .enc
  | 0x10 => .ok .dec
  | _ => .error .reservedOpcode

/-- The decoder: a word is legal when (a), (b) and (c) of rule R104 hold, and is then the command of its opcode. -/
def decode (c : Word) : Except Illegal Instr :=
  if (0x10 : Byte) < fieldOP c then .error .reservedOpcode
  else if fieldRSV c ≠ 0 then .error .reservedField
  else if unusedFieldsZero c then decodeOpcode c
  else .error .unusedField

/-- The decoder's answer for an instruction of spec/opcode_table.json whose bits are `w`, bit 0 the least significant bit of
the one 32-bit word (30_encoding.md rule R101); the bits from `nbits` on are 0. -/
def decodeTableWord (nbits w : Nat) : Option Instr :=
  match decode (BitVec.ofNat 32 (w % 2 ^ nbits)) with
  | .ok i => some i
  | .error _ => none

/-! The encoder. -/

/-- The opcode of a command (rule R103). -/
def opcode : Instr → Byte
  | .nop => 0x00
  | .sbox _ => 0x01
  | .isbox _ => 0x02
  | .gfmul _ _ => 0x03
  | .bsf => 0x04
  | .bsi => 0x05
  | .trn => 0x06
  | .kexp => 0x07
  | .subb => 0x08
  | .isubb => 0x09
  | .shrows => 0x0A
  | .ishrows => 0x0B
  | .mixcol => 0x0C
  | .imixcol => 0x0D
  | .ark _ => 0x0E
  | .enc => 0x0F
  | .dec => 0x10

/-- A word from its fields, in rule R100's places: {B, A, RSV, R, OP} with RSV = 0. -/
def encodeFields (b a : Byte) (r : BitVec 4) (op : Byte) : Word := b ++ a ++ (0#4) ++ r ++ op

/-- The word of a well-formed command; a field the command does not use is 0 (rules R103, R104 and R107). -/
def encode (i : Instr) : Word :=
  match i with
  | .sbox a | .isbox a => encodeFields 0 a 0 (opcode i)
  | .gfmul a b => encodeFields b a 0 (opcode i)
  | .ark r => encodeFields 0 0 (BitVec.ofNat 4 r) (opcode i)
  | .nop | .bsf | .bsi | .trn | .kexp | .subb | .isubb | .shrows | .ishrows | .mixcol | .imixcol | .enc | .dec =>
    encodeFields 0 0 0 (opcode i)

end Sys2Proof
end

