-- ==== Sys2Proof/Config.lean ====
section
/-! DEFINITION. The parameters the spec leaves open (00_scope.md rule R12) that no rule gives a value, and the `draw`
(rule R15). None has a body, so a statement about the model holds for every value they could take. The fourth
parameter, SBOX_TABLE, has a default and is held in State (`State.sboxTable`). -/

namespace Sys2Proof.Config

/-- `ENGINE_BASE`, the host address of window offset 0x0000 (20_memory.md rule R60). No rule depends on it. -/
opaque engineBase : Nat

/-- What `LATENCY(op)` exceeds one cycle by. -/
opaque extraCycles : Byte → Nat

/-- `LATENCY(op)`, a positive number of cycles that depends on the opcode only (70_reset_and_hazards.md rule R295). The
model performs a command in one transition (60_exceptions.md rule R240), and no rule depends on the number. -/
def latency (op : Byte) : Nat := extraCycles op + 1

/-- A `draw`: a value chosen freely by the environment, under no law (rule R15). The n-th draw of a run is `draw n`: State
counts the draws, so that two of them may differ (70_reset_and_hazards.md rule R290). -/
opaque draw : Nat → Word

/-- `HOST_CHARSET`, from a text to its bytes (44_pipeline.md rule R212). The engine never sees it. -/
opaque encodeText : List Char → List Byte

/-- `HOST_CHARSET`, from a byte to its character (44_pipeline.md rule R213). -/
opaque decodeByte : Byte → Char

end Sys2Proof.Config
end

