-- ==== Sys2Proof/Machine/State.lean ====
section
/-! DEFINITION. The state of P1C-CORE and of its two agents, the reasons a step can stop, and the state after reset
(10_state.md). There is no memory beside the registers: the one address space is the register window (20_memory.md rule
R60), and the engine has no memory port. -/

namespace Sys2Proof.Machine

/-- A 16-byte value in the column-major layout of rule R21: byte p is row p mod 4, column p div 4. The spec's "State" value. -/
abbrev Block := Vector Byte 16

/-- The 32 bytes KEY[0..31] (rule R28). -/
abbrev Key := Vector Byte 32

/-- The 60 words W[0..59] of the expanded key (rule R29). -/
abbrev ExpandedKey := Vector Word 60

/-- The error causes of 60_exceptions.md rule R241. Codes 4 to 15 are never produced. -/
inductive ErrCode where
  | none
  | illegalCmd
  | roundRange
  | noKey
  deriving DecidableEq, Repr

/-- The direction of the trace, STATUS.TDIR (rule R24). -/
inductive Direction where
  | enc
  | dec
  deriving DecidableEq, Repr

/-- The step kinds of 44_pipeline.md rule R205. Codes 0x0E to 0xFF never occur. -/
inductive StepKind where
  | empty
  | input
  | bitshift
  | transpose
  | addRoundKey
  | subBytes
  | shiftRows
  | mixColumns
  | invSubBytes
  | invShiftRows
  | invMixColumns
  | invTranspose
  | invBitshift
  | output
  deriving DecidableEq, Repr

/-- One entry of TRACE (rule R31). -/
structure TraceEntry where
  /-- KIND, 8 bits in the window. -/
  kind : StepKind
  /-- ROUND, 0 to 14. -/
  round : BitVec 4
  /-- HASRK, 1 only for ADD_ROUND_KEY entries. -/
  hasrk : Bool
  /-- S, the State after the step. -/
  s : Block
  /-- K, the round key used when HASRK = 1. -/
  k : Block
  deriving DecidableEq, Repr

/-- The STATUS register, field by field (rule R24). Its reserved bits read 0 and hold nothing. -/
structure Status where
  /-- Bit 0: an accepted command has not completed. -/
  busy : Bool
  /-- Bit 1: the last accepted command has completed. -/
  done : Bool
  /-- Bit 2: a command has ended in error since ERR was last cleared. -/
  err : Bool
  /-- Bit 3: a host write was discarded because BUSY = 1. -/
  ovr : Bool
  /-- Bit 4: W holds the expansion of the current KEY. -/
  rkvalid : Bool
  /-- Bit 5: the direction of the trace in TRACE. -/
  tdir : Direction
  /-- Bits 11:8: the code of the first error since ERR was last cleared. -/
  errcode : ErrCode
  /-- Bits 23:16: the number of valid TRACE entries. -/
  tcount : Byte
  deriving DecidableEq, Repr

/-- The CTRL register, field by field (rule R25). SRST (bit 31) is write only and holds nothing. -/
structure Ctrl where
  /-- Bit 0: enables the interrupt line on DONE. -/
  doneie : Bool
  /-- Bit 1: enables the interrupt line on ERR. -/
  errie : Bool
  deriving DecidableEq, Repr

/-- A running ENC or DEC: the sequencer index SEQ, the working State and the trace so far (44_pipeline.md rules R200 and
R201). SEQ exists only during an ENC or DEC (rule R35), and an Engine step is one indivisible transition (60_exceptions.md
rule R240), so this record lives inside that transition and is no field of State. -/
structure Pipeline where
  seq : Nat
  s : Block
  trace : Vector TraceEntry 60
  deriving DecidableEq, Repr

/-- What an aligned offset of the window names (20_memory.md rule R63). -/
inductive WindowReg where
  | cmd
  | status
  | ctrl
  | result
  /-- Column c of STATE. -/
  | state (c : Fin 4)
  /-- Word k of KEY. -/
  | key (k : Fin 8)
  /-- W[i]. -/
  | w (i : Fin 60)
  /-- Word o (of 16) of TRACE[n]. -/
  | trace (n : Fin 60) (o : Fin 16)
  | reserved
  deriving DecidableEq, Repr

/-- One access of the Host to the window, or its polling loop (20_memory.md rules R64, R68 and R69; 30_encoding.md rule
R108). `n` is the width in bytes, of which 4 is the only one defined. -/
inductive HostOp where
  /-- `MemWrite(off, n, v)`. -/
  | wr (off n : Nat) (v : Word)
  /-- `MemRead(off, n)`, its value a result of the host's program. -/
  | rd (off n : Nat)
  /-- Repeat `MemRead(0x004, 4)` until bit 0 of the value is 0. -/
  | wait
  deriving DecidableEq, Repr

/-- Who takes the next step (10_state.md rule R20), or what the platform does to the RST input (70_reset_and_hazards.md rule
R280). -/
inductive Turn where
  | host
  | engine
  /-- The platform drives RST to a level, true for asserted. -/
  | rst (level : Bool)
  deriving DecidableEq, Repr

/-- Everything the spec gives the machine (10_state.md rule R22: "There are no others"), then what the model adds. -/
structure State where
  /-- CMD: the last accepted command word, in flight while BUSY = 1 (rules R23 and R37). -/
  cmd : Word
  /-- STATUS (rule R24). -/
  status : Status
  /-- CTRL (rule R25). -/
  ctrl : Ctrl
  /-- RESULT[7:0]; bits [31:8] are always 0 (rule R26). -/
  result : Byte
  /-- STATE[0..15] (rule R27). -/
  state : Block
  /-- KEY[0..31] (rule R28). -/
  key : Key
  /-- W[0..59] (rule R29). -/
  w : ExpandedKey
  /-- TRACE[0..59] (rule R31). -/
  trace : Vector TraceEntry 60
  /-- The level of the RST input (70_reset_and_hazards.md rule R280). -/
  rst : Bool
  /-- The configuration parameter SBOX_TABLE (00_scope.md rule R12); no step changes it (rule R33). -/
  sboxTable : Vector Byte 256
  /-- The model's own: how many draws have been made; the next is `Config.draw draws`. -/
  draws : Nat
  /-- The Host's accesses still to be made, in program order (20_memory.md rule R73). -/
  hostOps : List HostOp
  /-- The values the Host's `rd` lines have read, oldest first (30_encoding.md rule R108). -/
  hostReads : List Word
  /-- The model's own: whose step comes next, for as long as it says; then the Engine while BUSY = 1, else the Host. -/
  turns : List Turn
  deriving DecidableEq, Repr

/-- How a run stops: the response the window gives to an access that is not defined. -/
inductive Fault where
  /-- Raised by the Host's step for a read that gets BusError: a width other than 32 bits, a misaligned offset (20_memory.md
  rule R64) or RST asserted (70_reset_and_hazards.md rule R280). It carries the read data, 0. No engine state has changed.
  Safe: the model stops where a bus would answer an error. -/
  | busErrorRead (off n : Nat) (data : Word)
  /-- The same for a write. Safe. -/
  | busErrorWrite (off n : Nat)
  /-- Raised by the Host's step for an offset beyond 0x1FFF, which is no address of the engine (20_memory.md rules R60 and
  R78). Safe: such an access does not reach the engine, and the spec gives it no meaning. -/
  | outsideWindow (off : Nat)
  deriving DecidableEq, Repr

/-- What the model refuses. -/
inductive Refusal where
  /-- Raised by `exec` for an instruction that has no meaning yet. Safe: no claim about it can be proved. -/
  | notModelled (mnemonic : String)
  /-- Raised by every step when SBOX_TABLE is no permutation of 0..255: "a model must refuse a configuration whose SBOX_TABLE
  is not a bijection" (40_tables.md rule R123). Safe. -/
  | sboxNotBijective
  deriving DecidableEq, Repr

/-- Sixteen zero bytes. -/
def zeroBlock : Block := Vector.ofFn fun _ => 0

/-- The EMPTY entry: KIND = 0, ROUND = 0, HASRK = 0 and S = K = 0 (rule R39). -/
def emptyEntry : TraceEntry := { kind := .empty, round := 0, hasrk := false, s := zeroBlock, k := zeroBlock }

/-- The machine right after reset: every register at the value of rule R22's "reset" column (rule R39), RST released, the
default table, and no host access pending. -/
def State.reset : State where
  cmd := 0
  status :=
    { busy := false, done := false, err := false, ovr := false, rkvalid := false, tdir := .enc, errcode := .none, tcount := 0 }
  ctrl := { doneie := false, errie := false }
  result := 0
  state := zeroBlock
  key := Vector.ofFn fun _ => 0
  w := Vector.ofFn fun _ => 0
  trace := Vector.ofFn fun _ => emptyEntry
  rst := false
  sboxTable := fipsSbox
  draws := 0
  hostOps := []
  hostReads := []
  turns := []

end Sys2Proof.Machine
end

