-- ==== Sys2Proof/Machine/Operands.lean ====
section
/-! DEFINITION. The operand forms: bytes of a word, elements and columns of a 16-byte value, round keys, and the window's
offsets (10_state.md section 2, 20_memory.md sections 2 and 3). -/

namespace Sys2Proof.Machine

/-- Byte j of a word, bits [8j+7:8j] (00_scope.md rule R14, 20_memory.md rule R61). -/
def wordByte (w : Word) (j : Nat) : Byte := w.extractLsb' (8 * j) 8

/-- The word {b3, b2, b1, b0}: byte j is bj (20_memory.md rule R61). -/
def wordOfBytes (b0 b1 b2 b3 : Byte) : Word := b3 ++ b2 ++ b1 ++ b0

/-- `s[r, c]`, the element at row r and column c: byte r + 4c (00_scope.md rule R14). -/
def Block.rc (s : Block) (r c : Fin 4) : Byte := s[r.val + 4 * c.val]

/-- `State(f)`, the value whose byte at (r, c) is `f(r, c)` (00_scope.md rule R14). -/
def blockOfRC (f : Fin 4 → Fin 4 → Byte) : Block :=
  Vector.ofFn fun p => f ⟨p.val % 4, by omega⟩ ⟨p.val / 4, by omega⟩

/-- Column c of a 16-byte value as a word: row j in bits [8j+7:8j] (10_state.md rule R21). -/
def columnWord (s : Block) (c : Fin 4) : Word :=
  wordOfBytes (Block.rc s 0 c) (Block.rc s 1 c) (Block.rc s 2 c) (Block.rc s 3 c)

/-- A 16-byte value with column c replaced by the bytes of a word (20_memory.md rule R68). -/
def setColumn (s : Block) (c : Fin 4) (v : Word) : Block :=
  Vector.ofFn fun p => if p.val / 4 = c.val then wordByte v (p.val % 4) else s[p]

/-- Word k of KEY: {KEY[4k+3], KEY[4k+2], KEY[4k+1], KEY[4k]} (20_memory.md rule R69). -/
def keyWord (key : Key) (k : Fin 8) : Word :=
  wordOfBytes key[4 * k.val] key[4 * k.val + 1] key[4 * k.val + 2] key[4 * k.val + 3]

/-- KEY with the bytes of word k replaced (20_memory.md rule R68). -/
def setKeyWord (key : Key) (k : Fin 8) (v : Word) : Key :=
  Vector.ofFn fun j => if j.val / 4 = k.val then wordByte v (j.val % 4) else key[j]

/-- Round key r: `RK(r)[p] = W[4r + (p div 4)].byte[p mod 4]` (10_state.md rule R29). -/
def roundKey (w : ExpandedKey) (r : Fin 15) : Block :=
  Vector.ofFn fun p => wordByte w[4 * r.val + p.val / 4] (p.val % 4)

/-- What an aligned offset names; an offset not listed is reserved (20_memory.md rule R63). -/
def regAt (off : Nat) : WindowReg :=
  if off = 0x000 then .cmd
  else if off = 0x004 then .status
  else if off = 0x008 then .ctrl
  else if off = 0x00C then .result
  else if h : 0x010 ≤ off ∧ off < 0x020 then .state ⟨(off - 0x010) / 4, by omega⟩
  else if h : 0x020 ≤ off ∧ off < 0x040 then .key ⟨(off - 0x020) / 4, by omega⟩
  else if h : 0x100 ≤ off ∧ off < 0x1F0 then .w ⟨(off - 0x100) / 4, by omega⟩
  else if h : 0x1000 ≤ off ∧ off < 0x1F00 then
    .trace ⟨(off - 0x1000) / 64, by omega⟩ ⟨(off - 0x1000) % 64 / 4, by omega⟩
  else .reserved

/-- The size of the window: 8 KiB (20_memory.md rule R60). -/
def windowSize : Nat := 0x2000

/-- The host address of a window offset (20_memory.md rule R60). -/
def hostAddress (off : Nat) : Nat := Config.engineBase + off

/-- The window offset of a host address, none where the address is outside the window (20_memory.md rule R60). -/
def windowOffset (addr : Nat) : Option Nat :=
  if Config.engineBase ≤ addr ∧ addr < Config.engineBase + windowSize then some (addr - Config.engineBase) else none

/-- The only accesses defined are aligned and 32 bits wide (20_memory.md rule R64). -/
def accessDefined (off n : Nat) : Bool := n == 4 && off % 4 == 0

/-- The KIND codes of 44_pipeline.md rule R205. -/
def StepKind.code : StepKind → Byte
  | .empty => 0x00
  | .input => 0x01
  | .bitshift => 0x02
  | .transpose => 0x03
  | .addRoundKey => 0x04
  | .subBytes => 0x05
  | .shiftRows => 0x06
  | .mixColumns => 0x07
  | .invSubBytes => 0x08
  | .invShiftRows => 0x09
  | .invMixColumns => 0x0A
  | .invTranspose => 0x0B
  | .invBitshift => 0x0C
  | .output => 0x0D

/-- The descriptor word of an entry, {19'b0, HASRK, ROUND[3:0], KIND[7:0]} (20_memory.md rule R63). -/
def descriptorWord (e : TraceEntry) : Word := (0#19) ++ BitVec.ofBool e.hasrk ++ e.round ++ e.kind.code

/-- The words of a trace entry that hold something: the descriptor, S and K. The others, from 0x04 to 0x0C and from 0x30 to 0x3C,
are reserved and read 0 (20_memory.md rules R63 and R65, 93_implementation_defined.md I4). -/
def traceWordUsed (o : Fin 16) : Bool := decide (o.val = 0 ∨ (4 ≤ o.val ∧ o.val < 12))

/-- Word o of a trace entry: the descriptor, the columns of S from 0x10, the columns of K from 0x20, and 0 elsewhere
(20_memory.md rules R63 and R69). -/
def traceWord (e : TraceEntry) (o : Fin 16) : Word :=
  if o.val = 0 then descriptorWord e
  else if h : 4 ≤ o.val ∧ o.val < 8 then columnWord e.s ⟨o.val - 4, by omega⟩
  else if h : 8 ≤ o.val ∧ o.val < 12 then columnWord e.k ⟨o.val - 8, by omega⟩
  else 0

end Sys2Proof.Machine
end

