-- ==== Sys2Proof/Machine/Flags.lean ====
section
/-! DEFINITION. The flag computations: the STATUS and CTRL words, what a write does to them, and the interrupt line
(10_state.md rules R24, R25 and R38). -/

namespace Sys2Proof.Machine

/-- ERRCODE's codes (60_exceptions.md rule R241). -/
def ErrCode.code : ErrCode → BitVec 4
  | .none => 0
  | .illegalCmd => 1
  | .roundRange => 2
  | .noKey => 3

/-- TDIR: 0 = ENC, 1 = DEC (rule R24). -/
def Direction.bit : Direction → BitVec 1
  | .enc => 0
  | .dec => 1

/-- {8'b0, TCOUNT[7:0], 4'b0, ERRCODE[3:0], 2'b0, TDIR, RKVALID, OVR, ERR, DONE, BUSY} (20_memory.md rule R69). -/
def statusWord (st : Status) : Word :=
  (0#8) ++ st.tcount ++ (0#4) ++ st.errcode.code ++ (0#2) ++ st.tdir.bit ++ BitVec.ofBool st.rkvalid ++
    BitVec.ofBool st.ovr ++ BitVec.ofBool st.err ++ BitVec.ofBool st.done ++ BitVec.ofBool st.busy

/-- {30'b0, ERRIE, DONEIE} (20_memory.md rule R69). -/
def ctrlWord (c : Ctrl) : Word := (0#30) ++ BitVec.ofBool c.errie ++ BitVec.ofBool c.doneie

/-- A write to STATUS: a 1 in bit 1 clears DONE, in bit 2 ERR and ERRCODE with it, in bit 3 OVR; every other bit is ignored
(rule R24, 20_memory.md rule R68). It is also how a host acknowledges an error (60_exceptions.md rule R245). -/
def clearStatusBits (v : Word) (st : Status) : Status :=
  { st with
    done := st.done && !v.getLsbD 1
    err := st.err && !v.getLsbD 2
    errcode := if v.getLsbD 2 then .none else st.errcode
    ovr := st.ovr && !v.getLsbD 3 }

/-- CTRL as a write without SRST leaves it: DONEIE <- v[0], ERRIE <- v[1], the other bits ignored (rule R25). -/
def ctrlOfWord (v : Word) : Ctrl := { doneie := v.getLsbD 0, errie := v.getLsbD 1 }

/-- The interrupt output, level sensitive and active high: (DONE & DONEIE) | (ERR & ERRIE), at all times (rule R38). -/
def irq (s : State) : Bool := (s.status.done && s.ctrl.doneie) || (s.status.err && s.ctrl.errie)

end Sys2Proof.Machine
end

