-- ==== Sys2Proof/Machine/Ops.lean ====
section
/-! DEFINITION. The operations the meanings share: acceptance, completion, the error entry and its acknowledgement, reset,
the writes of the operand registers, and a host's read or write of one window word. -/

namespace Sys2Proof.Machine

/-- A CMD write accepted while BUSY = 0: the word is stored, BUSY is set and DONE cleared, nothing is decoded (20_memory.md
rule R70). -/
def acceptCommand (v : Word) (s : State) : State :=
  { s with cmd := v, status := { s.status with busy := true, done := false } }

/-- The completion of a command: BUSY <- 0, DONE <- 1 (60_exceptions.md rule R240). -/
def complete (s : State) : State :=
  { s with status := { s.status with busy := false, done := true } }

/-- The error entry `raise CmdError(code)`: the first error is kept, then BUSY <- 0 and DONE <- 1, and nothing else changes
(60_exceptions.md rules R244 and R246). It is the engine's whole exception entry: nothing is saved, no mode changes and
control goes nowhere. -/
def raiseCmdError (code : ErrCode) (s : State) : State :=
  { s with
    status :=
      { s.status with
        err := true
        errcode := if s.status.err then s.status.errcode else code
        busy := false
        done := true } }

/-- A host's write to STATUS. Writing 1 to bit 2 is the acknowledgement of an error, in place of a return from it
(60_exceptions.md rule R245). -/
def writeStatus (v : Word) (s : State) : State := { s with status := clearStatusBits v s.status }

/-- `Reset()`: every register of 10_state.md rule R22 takes its reset value and the command in flight is abandoned. The RST
level, the configuration and the Host's own program are not the engine's registers and stay (70_reset_and_hazards.md rule
R280). -/
def resetEngine (s : State) : State :=
  { State.reset with
    rst := s.rst
    sboxTable := s.sboxTable
    draws := s.draws
    hostOps := s.hostOps
    hostReads := s.hostReads
    turns := s.turns }

/-- A host write discarded because BUSY = 1: it changes nothing but sets OVR (20_memory.md rule R72). -/
def discardWrite (s : State) : State := { s with status := { s.status with ovr := true } }

/-- STATE <- b. -/
def setState (b : Block) (s : State) : State := { s with state := b }

/-- RESULT <- zext_32(b) (10_state.md rule R26). -/
def setResult (b : Byte) (s : State) : State := { s with result := b }

/-- W[0..59] <- w and RKVALID <- 1 (42_key_schedule.md rule R161). -/
def setRoundKeys (w : ExpandedKey) (s : State) : State :=
  { s with w := w, status := { s.status with rkvalid := true } }

/-- TRACE[0..59] <- T, TCOUNT <- 60 and TDIR <- d (44_pipeline.md rules R202 and R204). -/
def setTrace (t : Vector TraceEntry 60) (d : Direction) (s : State) : State :=
  { s with trace := t, status := { s.status with tcount := 60, tdir := d } }

/-- The word that the registers hold at a place of the window: what a read returns while BUSY = 0 (20_memory.md rule R69). An
entry n >= TCOUNT of the trace reads as zero. -/
def heldWord (s : State) : WindowReg → Word
  | .cmd => s.cmd
  | .status => statusWord s.status
  | .ctrl => ctrlWord s.ctrl
  | .result => s.result.setWidth 32
  | .state c => columnWord s.state c
  | .key k => keyWord s.key k
  | .w i => s.w[i]
  | .trace n o => if s.status.tcount.toNat ≤ n.val then 0 else traceWord s.trace[n] o
  | .reserved => 0

/-- The bits of a read that are draws while BUSY = 1: all of RESULT, of STATE, of W and of the words that TRACE's entries hold,
the STATUS fields TCOUNT, TDIR and RKVALID, and nothing else (70_reset_and_hazards.md rule R290). DESIGN CHOICE (log entry
3): a reserved word of a trace entry reads 0 then too, as 20_memory.md rules R63 and R65 and 93_implementation_defined.md
I4 say, a value that a draw allows. -/
def drawMask : WindowReg → Word
  | .result | .state _ | .w _ => 0xFFFFFFFF
  | .trace _ o => if traceWordUsed o then 0xFFFFFFFF else 0
  | .status => 0x00FF0030
  | .cmd | .ctrl | .key _ | .reserved => 0

/-- `MemRead(off, 4)` of what an aligned offset names: the value, and the state, in which only the count of draws may have
advanced, since no read has a side effect (20_memory.md rules R66 and R69). -/
def memRead (r : WindowReg) (s : State) : Word × State :=
  if s.status.busy && drawMask r != 0 then
    ((heldWord s r &&& ~~~(drawMask r)) ||| (Config.draw s.draws &&& drawMask r), { s with draws := s.draws + 1 })
  else (heldWord s r, s)

/-- `MemWrite(off, 4, v)` to what an aligned offset names (20_memory.md rule R68). -/
def memWrite (r : WindowReg) (v : Word) (s : State) : State :=
  match r with
  | .cmd => if s.status.busy then discardWrite s else acceptCommand v s
  | .status => writeStatus v s
  | .ctrl => if v.getLsbD 31 then resetEngine s else { s with ctrl := ctrlOfWord v }
  | .state c => if s.status.busy then discardWrite s else { s with state := setColumn s.state c v }
  | .key k =>
    if s.status.busy then discardWrite s
    else { s with key := setKeyWord s.key k v, status := { s.status with rkvalid := false } }
  | .result | .w _ | .trace _ _ | .reserved => s

end Sys2Proof.Machine
end

