-- ==== Sys2Proof/Machine/Diffusion.lean ====
section
/-! DEFINITION. The diffusion layer: the per-byte bit rotation and the transpose (41_diffusion.md). -/

namespace Sys2Proof.Machine

/-- Every byte rotated right by one bit: {s[p][0], s[p][7:1]} (rule R135). -/
def bitshiftForward (s : Block) : Block := Vector.ofFn fun p => s[p].rotateRight 1

/-- Every byte rotated left by one bit: {s[p][6:0], s[p][7]} (rule R136). -/
def bitshiftInverse (s : Block) : Block := Vector.ofFn fun p => s[p].rotateLeft 1

/-- `transpose(s)[r, c] = s[c, r]` (rule R137). -/
def transpose (s : Block) : Block := blockOfRC fun r c => Block.rc s c r

/-- BSF: STATE <- bitshiftForward(STATE) (rule R140). -/
def execBsf (s : State) : Host.Outcome State Fault Refusal :=
  .next (complete (setState (bitshiftForward s.state) s))

/-- BSI: STATE <- bitshiftInverse(STATE) (rule R141). -/
def execBsi (s : State) : Host.Outcome State Fault Refusal :=
  .next (complete (setState (bitshiftInverse s.state) s))

/-- TRN: STATE <- transpose(STATE) (rule R142). -/
def execTrn (s : State) : Host.Outcome State Fault Refusal :=
  .next (complete (setState (transpose s.state) s))

end Sys2Proof.Machine
end

