-- ==== Sys2Proof/Machine/KeySchedule.lean ====
section
/-! DEFINITION. The key schedule (42_key_schedule.md). A word [a0, a1, a2, a3] is the Word {a3, a2, a1, a0}: aj is byte j. -/

namespace Sys2Proof.Machine

/-- `RotWord([a0, a1, a2, a3]) = [a1, a2, a3, a0]` (rule R151). -/
def rotWord (w : Word) : Word := wordOfBytes (wordByte w 1) (wordByte w 2) (wordByte w 3) (wordByte w 0)

/-- `SubWord` looks up each byte of the word (rule R152). -/
def subWord (t : Vector Byte 256) (w : Word) : Word :=
  wordOfBytes (sboxAt t (wordByte w 0)) (sboxAt t (wordByte w 1)) (sboxAt t (wordByte w 2)) (sboxAt t (wordByte w 3))

/-- The word `temp` that W[i] is XORed with, for i = 8 + j, from W[i-1] (rule R160). The round constant goes into byte a0,
bits [7:0]; its index i div 8 is 1 to 7. P1C's condition `Nk > 6` is always true and no parameter. -/
def expansionTemp (t : Vector Byte 256) (j : Fin 52) (prev : Word) : Word :=
  let i := 8 + j.val
  if i % 8 = 0 then subWord t (rotWord prev) ^^^ (rcon[i / 8]'(by omega)).setWidth 32
  else if i % 8 = 4 then subWord t prev
  else prev

/-- One pass of the loop of rule R160 with i = 8 + j: W[i] <- W[i-8] ^ temp. -/
def expandWord (t : Vector Byte 256) (w : ExpandedKey) (j : Fin 52) : ExpandedKey :=
  w.set (8 + j.val) (w[j.val] ^^^ expansionTemp t j w[7 + j.val])

/-- `W[k] <- [key[4k], key[4k+1], key[4k+2], key[4k+3]]` for k in 0..7; the words the loop has still to write are 0. -/
def firstWords (key : Key) : ExpandedKey :=
  Vector.ofFn fun i => if h : i.val < 8 then keyWord key ⟨i.val, h⟩ else 0

/-- `KeySchedule(key)` as W[0..59], the loop of rule R160 for i = 8 to 59 in order. -/
def keySchedule (t : Vector Byte 256) (key : Key) : ExpandedKey :=
  (List.finRange 52).foldl (expandWord t) (firstWords key)

/-- KEXP: W <- KeySchedule(KEY), RKVALID <- 1 (rule R161). -/
def execKexp (s : State) : Host.Outcome State Fault Refusal :=
  .next (complete (setRoundKeys (keySchedule s.sboxTable s.key) s))

end Sys2Proof.Machine
end

