-- ==== Sys2Proof/Machine/RoundOps.lean ====
section
/-! DEFINITION. The round operations (43_round_ops.md). Each result is built from the whole old value. -/

namespace Sys2Proof.Machine

/-- `subBytes(s)[p] = sbox(s[p])` (rule R170). -/
def subBytes (t : Vector Byte 256) (s : Block) : Block := Vector.ofFn fun p => sboxAt t s[p]

/-- `invSubBytes(s)[p] = invSbox(s[p])` (rule R170). -/
def invSubBytes (t : Vector Byte 256) (s : Block) : Block := Vector.ofFn fun p => invSboxAt t s[p]

/-- `shiftRows(s)[r, c] = s[r, (c + r) mod 4]`; the sum of two numbers below 4 is taken mod 4 (rule R171). -/
def shiftRows (s : Block) : Block := blockOfRC fun r c => Block.rc s r (c + r)

/-- `invShiftRows(s)[r, c] = s[r, (c - r) mod 4]`, mod giving 0..3 (rule R172). -/
def invShiftRows (s : Block) : Block := blockOfRC fun r c => Block.rc s r (c - r)

/-- MixColumns, column by column (rule R173). -/
def mixColumns (s : Block) : Block :=
  blockOfRC fun r c =>
    let s0 := Block.rc s 0 c
    let s1 := Block.rc s 1 c
    let s2 := Block.rc s 2 c
    let s3 := Block.rc s 3 c
    match r with
    | 0 => gfMul 2 s0 ^^^ gfMul 3 s1 ^^^ s2 ^^^ s3
    | 1 => s0 ^^^ gfMul 2 s1 ^^^ gfMul 3 s2 ^^^ s3
    | 2 => s0 ^^^ s1 ^^^ gfMul 2 s2 ^^^ gfMul 3 s3
    | 3 => gfMul 3 s0 ^^^ s1 ^^^ s2 ^^^ gfMul 2 s3

/-- InvMixColumns, column by column, in the arrangement of rule R174 (92_eei_decisions.md D16). -/
def invMixColumns (s : Block) : Block :=
  blockOfRC fun r c =>
    let s0 := Block.rc s 0 c
    let s1 := Block.rc s 1 c
    let s2 := Block.rc s 2 c
    let s3 := Block.rc s 3 c
    match r with
    | 0 => gfMul 0x0E s0 ^^^ gfMul 0x0B s1 ^^^ gfMul 0x0D s2 ^^^ gfMul 0x09 s3
    | 1 => gfMul 0x09 s0 ^^^ gfMul 0x0E s1 ^^^ gfMul 0x0B s2 ^^^ gfMul 0x0D s3
    | 2 => gfMul 0x0D s0 ^^^ gfMul 0x09 s1 ^^^ gfMul 0x0E s2 ^^^ gfMul 0x0B s3
    | 3 => gfMul 0x0B s0 ^^^ gfMul 0x0D s1 ^^^ gfMul 0x09 s2 ^^^ gfMul 0x0E s3

/-- `addRoundKey(s, k)[p] = s[p] ^ k[p]` (rule R175). -/
def addRoundKey (s k : Block) : Block := Vector.ofFn fun p => s[p] ^^^ k[p]

/-- SUBB: STATE <- subBytes(STATE) (rule R180). -/
def execSubb (s : State) : Host.Outcome State Fault Refusal :=
  .next (complete (setState (subBytes s.sboxTable s.state) s))

/-- ISUBB: STATE <- invSubBytes(STATE) (rule R181). -/
def execIsubb (s : State) : Host.Outcome State Fault Refusal :=
  .next (complete (setState (invSubBytes s.sboxTable s.state) s))

/-- SHROWS: STATE <- shiftRows(STATE) (rule R182). -/
def execShrows (s : State) : Host.Outcome State Fault Refusal :=
  .next (complete (setState (shiftRows s.state) s))

/-- ISHROWS: STATE <- invShiftRows(STATE) (rule R183). -/
def execIshrows (s : State) : Host.Outcome State Fault Refusal :=
  .next (complete (setState (invShiftRows s.state) s))

/-- MIXCOL: STATE <- mixColumns(STATE) (rule R184). -/
def execMixcol (s : State) : Host.Outcome State Fault Refusal :=
  .next (complete (setState (mixColumns s.state) s))

/-- IMIXCOL: STATE <- invMixColumns(STATE) (rule R185). -/
def execImixcol (s : State) : Host.Outcome State Fault Refusal :=
  .next (complete (setState (invMixColumns s.state) s))

/-- ARK: ROUND_RANGE where R is no round key's index (R = 15 is the only such value of the field, 30_encoding.md rule R105),
then NO_KEY where RKVALID = 0, else STATE <- addRoundKey(STATE, RK(R)) (rule R186; the order is 60_exceptions.md rule
R242's). -/
def execArk (r : Nat) (s : State) : Host.Outcome State Fault Refusal :=
  if h : r < 15 then
    if s.status.rkvalid then .next (complete (setState (addRoundKey s.state (roundKey s.w ⟨r, h⟩)) s))
    else .next (raiseCmdError .noKey s)
  else .next (raiseCmdError .roundRange s)

end Sys2Proof.Machine
end

