-- ==== Sys2Proof/Machine/Pipelines.lean ====
section
/-! DEFINITION. The encrypt and decrypt pipelines with their trace (44_pipeline.md sections 1 and 2). -/

namespace Sys2Proof.Machine

/-- `emit(KIND, ROUND, s, K?)`: the entry goes to index SEQ, and SEQ is incremented (rules R200 and R201). K is all zero
where there is no round key (10_state.md rule R31). -/
def emit (kind : StepKind) (round : Nat) (k : Option Block) (p : Pipeline) : Pipeline :=
  { p with
    seq := p.seq + 1
    trace :=
      p.trace.setIfInBounds p.seq
        { kind := kind, round := BitVec.ofNat 4 round, hasrk := k.isSome, s := p.s, k := k.getD zeroBlock } }

/-- `s <- f(s) ; emit(KIND, ROUND, s)`. -/
def stage (f : Block → Block) (kind : StepKind) (round : Nat) (p : Pipeline) : Pipeline :=
  emit kind round none { p with s := f p.s }

/-- `s <- addRoundKey(s, keys[r]) ; emit(ADD_ROUND_KEY, r, s, keys[r])`. -/
def keyStage (w : ExpandedKey) (r : Fin 15) (p : Pipeline) : Pipeline :=
  emit .addRoundKey r.val (some (roundKey w r)) { p with s := addRoundKey p.s (roundKey w r) }

/-- `SEQ <- 0`, the working value taken in, and step 1, `emit(INPUT, 0, s)`. Every entry is written before the end, so what the
entries are before it is not seen. -/
def beginPipeline (s : Block) : Pipeline :=
  emit .input 0 none { seq := 0, s := s, trace := Vector.ofFn fun _ => emptyEntry }

/-- The body of encrypt's step 6 for one round (rule R200). -/
def encryptRound (t : Vector Byte 256) (w : ExpandedKey) (p : Pipeline) (r : Fin 15) : Pipeline :=
  p |> stage (subBytes t) .subBytes r.val |> stage shiftRows .shiftRows r.val |> stage mixColumns .mixColumns r.val
    |> keyStage w r

/-- Encrypt's step 7, round 14, with no MixColumns (rule R200). -/
def encryptLastRound (t : Vector Byte 256) (w : ExpandedKey) (p : Pipeline) : Pipeline :=
  p |> stage (subBytes t) .subBytes 14 |> stage shiftRows .shiftRows 14 |> keyStage w 14

/-- Rounds 1 to 13, in increasing order. -/
def middleRounds : List (Fin 15) := [1, 2, 3, 4, 5, 6, 7, 8, 9, 10, 11, 12, 13]

/-- `encrypt(P, K)` (rule R200): the resulting State is the record's `s`, the trace its `trace`. -/
def encrypt (t : Vector Byte 256) (block : Block) (key : Key) : Pipeline :=
  let w := keySchedule t key
  let p := beginPipeline block |> stage bitshiftForward .bitshift 0 |> stage transpose .transpose 0 |> keyStage w 0
  encryptLastRound t w (middleRounds.foldl (encryptRound t w) p) |> emit .output 0 none

/-- The body of decrypt's step 4 for one round (rule R203). -/
def decryptRound (t : Vector Byte 256) (w : ExpandedKey) (p : Pipeline) (r : Fin 15) : Pipeline :=
  p |> stage invShiftRows .invShiftRows r.val |> stage (invSubBytes t) .invSubBytes r.val |> keyStage w r
    |> stage invMixColumns .invMixColumns r.val

/-- Decrypt's steps 5 to 7 (rule R203); the labels of step 5 are 0, the index of the key it uses. -/
def decryptLastRound (t : Vector Byte 256) (w : ExpandedKey) (p : Pipeline) : Pipeline :=
  p |> stage invShiftRows .invShiftRows 0 |> stage (invSubBytes t) .invSubBytes 0 |> keyStage w 0
    |> stage transpose .invTranspose 0 |> stage bitshiftInverse .invBitshift 0

/-- `decrypt(C, K)` (rule R203), its rounds 13 down to 1. -/
def decrypt (t : Vector Byte 256) (block : Block) (key : Key) : Pipeline :=
  let w := keySchedule t key
  let p := beginPipeline block |> keyStage w 14
  decryptLastRound t w (middleRounds.reverse.foldl (decryptRound t w) p) |> emit .output 0 none

/-- ENC: STATE <- C; W <- KeySchedule(KEY), RKVALID <- 1; TRACE <- T, TCOUNT <- 60, TDIR <- 0 (rule R202). -/
def execEnc (s : State) : Host.Outcome State Fault Refusal :=
  let p := encrypt s.sboxTable s.state s.key
  .next (complete (setTrace p.trace .enc (setRoundKeys (keySchedule s.sboxTable s.key) (setState p.s s))))

/-- DEC: STATE <- P; W <- KeySchedule(KEY), RKVALID <- 1; TRACE <- T, TCOUNT <- 60, TDIR <- 1 (rule R204). -/
def execDec (s : State) : Host.Outcome State Fault Refusal :=
  let p := decrypt s.sboxTable s.state s.key
  .next (complete (setTrace p.trace .dec (setRoundKeys (keySchedule s.sboxTable s.key) (setState p.s s))))

end Sys2Proof.Machine
end

