-- ==== Sys2Proof/Machine/Queries.lean ====
section
/-! DEFINITION. The commands that do not touch STATE: NOP, SBOX, ISBOX and GFMUL (40_tables.md section 2). -/

namespace Sys2Proof.Machine

/-- NOP: nothing but the completion (rule R125). -/
def execNop (s : State) : Host.Outcome State Fault Refusal := .next (complete s)

/-- SBOX: RESULT <- zext_32(sbox(A)) (rule R126). -/
def execSbox (a : Byte) (s : State) : Host.Outcome State Fault Refusal :=
  .next (complete (setResult (sboxAt s.sboxTable a) s))

/-- ISBOX: RESULT <- zext_32(invSbox(A)) (rule R127). -/
def execIsbox (a : Byte) (s : State) : Host.Outcome State Fault Refusal :=
  .next (complete (setResult (invSboxAt s.sboxTable a) s))

/-- GFMUL: RESULT <- zext_32(gfMul(A, B)) (rule R128). -/
def execGfmul (a b : Byte) (s : State) : Host.Outcome State Fault Refusal :=
  .next (complete (setResult (gfMul a b) s))

end Sys2Proof.Machine
end

