-- ==== Sys2Proof/Machine/Dispatch.lean ====
section
/-! DEFINITION. One arm per command: the case statement of the Engine step (60_exceptions.md rule R240). -/

namespace Sys2Proof.Machine

def exec (i : Instr) (s : State) : Host.Outcome State Fault Refusal :=
  match i with
  | .nop => Sys2Proof.Machine.execNop s
  | .sbox a => Sys2Proof.Machine.execSbox a s
  | .isbox a => Sys2Proof.Machine.execIsbox a s
  | .gfmul a b => Sys2Proof.Machine.execGfmul a b s
  | .bsf => Sys2Proof.Machine.execBsf s
  | .bsi => Sys2Proof.Machine.execBsi s
  | .trn => Sys2Proof.Machine.execTrn s
  | .kexp => Sys2Proof.Machine.execKexp s
  | .subb => Sys2Proof.Machine.execSubb s
  | .isubb => Sys2Proof.Machine.execIsubb s
  | .shrows => Sys2Proof.Machine.execShrows s
  | .ishrows => Sys2Proof.Machine.execIshrows s
  | .mixcol => Sys2Proof.Machine.execMixcol s
  | .imixcol => Sys2Proof.Machine.execImixcol s
  | .ark r => Sys2Proof.Machine.execArk r s
  | .enc => Sys2Proof.Machine.execEnc s
  | .dec => Sys2Proof.Machine.execDec s

end Sys2Proof.Machine
end

