-- ==== Sys2Proof/Machine/Agents.lean ====
section
/-! DEFINITION. The steps of the two agents, the RST input, and whose step comes next (10_state.md rule R20, 20_memory.md
section 6, 60_exceptions.md section 1). -/

namespace Sys2Proof.Machine

/-- The Engine step on the command in flight: a word that is not legal ends in ILLEGAL_CMD, a legal one is performed
(60_exceptions.md rule R240). -/
def engineStep (s : State) : Host.Outcome State Fault Refusal :=
  match decode s.cmd with
  | .ok i => exec i s
  | .error _ => .next (raiseCmdError .illegalCmd s)

/-- The Engine's turn. Its step is enabled exactly while BUSY = 1; otherwise it idles (70_reset_and_hazards.md rule R281). -/
def engineTurn (s : State) : Host.Outcome State Fault Refusal :=
  if s.status.busy then engineStep s else .next s

/-- One line of the Host's program (20_memory.md rules R64 to R72, 30_encoding.md rule R108). An access that is not defined,
and every access while RST is asserted, gets BusError and the Host's step faults. -/
def hostAccess (op : HostOp) (s : State) : Host.Outcome State Fault Refusal :=
  match op with
  | .rd off n =>
    if windowSize ≤ off then .fault (.outsideWindow off)
    else if s.rst || !accessDefined off n then .fault (.busErrorRead off n 0)
    else
      let (v, s') := memRead (regAt off) s
      .next { s' with hostReads := s'.hostReads ++ [v] }
  | .wr off n v =>
    if windowSize ≤ off then .fault (.outsideWindow off)
    else if s.rst || !accessDefined off n then .fault (.busErrorWrite off n)
    else .next (memWrite (regAt off) v s)
  | .wait =>
    if s.rst then .fault (.busErrorRead 0x004 4 0)
    else
      let (v, s') := memRead .status s
      .next (if v.getLsbD 0 then { s' with hostOps := .wait :: s'.hostOps } else s')

/-- The Host's turn: its oldest access is performed, in program order (20_memory.md rule R73); with none pending it does
nothing. -/
def hostTurn (s : State) : Host.Outcome State Fault Refusal :=
  match s.hostOps with
  | [] => .next s
  | op :: rest => hostAccess op { s with hostOps := rest }

/-- The platform drives RST; asserting it performs Reset() (70_reset_and_hazards.md rule R280). -/
def rstTurn (level : Bool) (s : State) : Host.Outcome State Fault Refusal :=
  .next (if level then resetEngine { s with rst := true } else { s with rst := false })

/-- One transition of the whole: the turn the schedule names, and with no turn named the Engine's while BUSY = 1, else the
Host's. Every order of the two agents' steps is some schedule (20_memory.md rule R67), and an enabled Engine step is taken at
the latest when the schedule ends (70_reset_and_hazards.md rule R295). A configuration whose S-box is no permutation is
refused (40_tables.md rule R123). -/
def runTurn (s : State) : Host.Outcome State Fault Refusal :=
  if sboxBijective s.sboxTable then
    match s.turns with
    | [] => if s.status.busy then engineTurn s else hostTurn s
    | .engine :: ts => engineTurn { s with turns := ts }
    | .host :: ts => hostTurn { s with turns := ts }
    | .rst level :: ts => rstTurn level { s with turns := ts }
  else .refused .sboxNotBijective

/-- The state in which a command word has just been accepted and the Engine's step comes next, whatever was in flight before. -/
def placeCommand (v : Word) (s : State) : State := { acceptCommand v s with turns := [] }

end Sys2Proof.Machine
end

