-- ==== Sys2Proof/Machine/Step.lean ====
section
/-! DEFINITION. The one step of the machine, and how an instruction is placed where the next step runs it. -/

namespace Sys2Proof.Machine

/-- One step of the two agents (10_state.md rule R20). -/
def step (s : State) : Host.Outcome State Fault Refusal := runTurn s

/-- The engine fetches no instruction: a command is the word in CMD while BUSY = 1 (10_state.md rules R23 and R35). So the word is
put there as an accepted CMD write would (20_memory.md rule R70), and the Engine's step comes next. -/
def State.withFetchWord (s : State) (nbits w : Nat) : State := placeCommand (BitVec.ofNat 32 (w % 2 ^ nbits)) s

end Sys2Proof.Machine
end

