-- ==== Sys2Proof/Machine/Codec.lean ====
section
/-! DEFINITION. The host's codec and its view of a trace step (44_pipeline.md section 4 and rule R205's last column). None of it
is hardware; it is here so that a model of the whole flow is possible (00_scope.md rule R9). -/

namespace Sys2Proof.Machine

/-- Bytes taken as a block: the first 16, and 0x00 where there are fewer; byte p goes to STATE[p] (rule R212). -/
def blockOfBytes (bytes : List Byte) : Block := Vector.ofFn fun p => bytes.getD p.val 0

/-- `textToState(input)`: the input's bytes under HOST_CHARSET, padded or truncated to 16 (rule R212). -/
def textToState (input : List Char) : Block := blockOfBytes (Config.encodeText input)

/-- `stateToText(s)`: the bytes in increasing p, each converted to a character; padding bytes are kept (rule R213). -/
def stateToText (s : Block) : List Char := s.toList.map Config.decodeByte

/-- A step's `text`: stateToText(TRACE[n].S), computed by the host (rule R214). -/
def stepText (s : State) (n : Fin 60) : List Char := stateToText s.trace[n].s

/-- P1C's closed set of step categories (rule R205). -/
inductive StepCategory where
  | init
  | bitshiftLayer
  | transpose
  | keyAddition
  | subBytes
  | shiftRows
  | mixColumns
  | terminal
  deriving DecidableEq, Repr

/-- The category of a step kind; an EMPTY entry is no step (rule R205). -/
def StepKind.category : StepKind → Option StepCategory
  | .empty => none
  | .input => some .init
  | .bitshift | .invBitshift => some .bitshiftLayer
  | .transpose | .invTranspose => some .transpose
  | .addRoundKey => some .keyAddition
  | .subBytes | .invSubBytes => some .subBytes
  | .shiftRows | .invShiftRows => some .shiftRows
  | .mixColumns | .invMixColumns => some .mixColumns
  | .output => some .terminal

end Sys2Proof.Machine
end

