-- ==== Sys2Proof/Machine/HostProgram.lean ====
section
/-! DEFINITION. How a host's program is written: the assembler of a command (30_encoding.md rule R107) and the
pseudo-instructions with their expansions (rule R108). -/

namespace Sys2Proof.Machine

/-! Texts are lists of characters. -/

/-- The mnemonics in lower case, in the order of their opcodes (rules R103 and R107). -/
def mnemonicsLower : List (List Char) :=
  [['n', 'o', 'p'], ['s', 'b', 'o', 'x'], ['i', 's', 'b', 'o', 'x'], ['g', 'f', 'm', 'u', 'l'], ['b', 's', 'f'],
    ['b', 's', 'i'], ['t', 'r', 'n'], ['k', 'e', 'x', 'p'], ['s', 'u', 'b', 'b']] ++
  [['i', 's', 'u', 'b', 'b'], ['s', 'h', 'r', 'o', 'w', 's'], ['i', 's', 'h', 'r', 'o', 'w', 's'],
    ['m', 'i', 'x', 'c', 'o', 'l'], ['i', 'm', 'i', 'x', 'c', 'o', 'l'], ['a', 'r', 'k'], ['e', 'n', 'c'], ['d', 'e', 'c']]

/-- A letter a to z as its capital; another character as it is. -/
def upperChar (c : Char) : Char :=
  if 97 ≤ c.toNat ∧ c.toNat ≤ 122 then Char.ofNat (c.toNat - 32) else c

/-- The opcode of a mnemonic written in lower or in upper case, none for another name. -/
def opcodeOfMnemonic (m : List Char) : Option Nat :=
  mnemonicsLower.findIdx? fun l => l == m || l.map upperChar == m

/-- The command of a mnemonic and its operands; none for an unknown name, a wrong count of operands, or an operand outside its
field's range (rule R107). `ark 15` is accepted. -/
def assemble (m : List Char) (operands : List Nat) : Option Instr :=
  match opcodeOfMnemonic m, operands with
  | some 0x00, [] => some .nop
  | some 0x01, [a] => if a < 256 then some (.sbox (BitVec.ofNat 8 a)) else none
  | some 0x02, [a] => if a < 256 then some (.isbox (BitVec.ofNat 8 a)) else none
  | some 0x03, [a, b] => if a < 256 ∧ b < 256 then some (.gfmul (BitVec.ofNat 8 a) (BitVec.ofNat 8 b)) else none
  | some 0x04, [] => some .bsf
  | some 0x05, [] => some .bsi
  | some 0x06, [] => some .trn
  | some 0x07, [] => some .kexp
  | some 0x08, [] => some .subb
  | some 0x09, [] => some .isubb
  | some 0x0A, [] => some .shrows
  | some 0x0B, [] => some .ishrows
  | some 0x0C, [] => some .mixcol
  | some 0x0D, [] => some .imixcol
  | some 0x0E, [r] => if r < 16 then some (.ark r) else none
  | some 0x0F, [] => some .enc
  | some 0x10, [] => some .dec
  | _, _ => none

/-- The value of a digit in a base of at most 16, none for another character. -/
def digitValue (base : Nat) (c : Char) : Option Nat :=
  let v :=
    if 48 ≤ c.toNat ∧ c.toNat ≤ 57 then c.toNat - 48
    else if 97 ≤ c.toNat ∧ c.toNat ≤ 102 then c.toNat - 87
    else if 65 ≤ c.toNat ∧ c.toNat ≤ 70 then c.toNat - 55
    else base
  if v < base then some v else none

/-- A run of digits read on from `acc`. -/
def digitsValue (base : Nat) : Nat → List Char → Option Nat
  | acc, [] => some acc
  | acc, c :: cs =>
    match digitValue base c with
    | some v => digitsValue base (base * acc + v) cs
    | none => none

/-- A number in decimal or with a 0x prefix (rule R107), of at least one digit. -/
def parseNumber : List Char → Option Nat
  | [] => none
  | ['0', 'x'] => none
  | '0' :: 'x' :: c :: cs => digitsValue 16 0 (c :: cs)
  | c :: cs => digitsValue 10 0 (c :: cs)

/-- The text with its leading spaces dropped. -/
def dropSpaces (l : List Char) : List Char := l.dropWhile (· == ' ')

/-- The text with its leading and trailing spaces dropped. -/
def trimSpaces (l : List Char) : List Char := (dropSpaces (dropSpaces l).reverse).reverse

/-- The parts of a text between its commas: `part` is the part being read, last character first. -/
def splitCommas (part : List Char) : List Char → List (List Char)
  | [] => [part.reverse]
  | ',' :: cs => part.reverse :: splitCommas [] cs
  | c :: cs => splitCommas (c :: part) cs

/-- The operands of a command, separated by commas; none where one of them is no number. -/
def parseOperands (l : List Char) : Option (List Nat) :=
  match trimSpaces l with
  | [] => some []
  | text => (splitCommas [] text).mapM fun part => parseNumber (trimSpaces part)

/-- A line of the assembler: the mnemonic, then its operands (rule R107). -/
def assembleLine (line : List Char) : Option Instr :=
  let text := trimSpaces line
  match parseOperands (text.dropWhile (· != ' ')) with
  | some operands => assemble (text.takeWhile (· != ' ')) operands
  | none => none

/-! The pseudo-instructions (rule R108); `wr`, `rd` and `wait` are the constructors of `HostOp`. -/

/-- `wr OFF, V`. -/
def hostWrite (off : Nat) (v : Word) : HostOp := .wr off 4 v

/-- `rd OFF`. -/
def hostRead (off : Nat) : HostOp := .rd off 4

/-- `cmd <command>`: `wr 0x000, <encoding>` then `wait`. -/
def hostCommand (i : Instr) : List HostOp := [hostWrite 0x000 (encode i), .wait]

/-- `ldstate b0, ..., b15`: the four columns. -/
def ldstate (b : Block) : List HostOp :=
  (List.finRange 4).map fun c => hostWrite (0x010 + 4 * c.val) (columnWord b c)

/-- `ldkey k0, ..., k31`: the eight words, in increasing order. -/
def ldkey (key : Key) : List HostOp :=
  (List.finRange 8).map fun k => hostWrite (0x020 + 4 * k.val) (keyWord key k)

/-- `w1c M`: `wr 0x004, M`. -/
def w1c (m : Word) : HostOp := hostWrite 0x004 m

/-- `encrypt`: `cmd enc`. -/
def hostEncrypt : List HostOp := hostCommand .enc

/-- `decrypt`: `cmd dec`. -/
def hostDecrypt : List HostOp := hostCommand .dec

end Sys2Proof.Machine
end

