-- ==== Sys2Proof/Safety.lean ====
section
/-! DEFINITION. What a safe run is, the invariant of the machine, and the frames that claims about commands use. -/

namespace Sys2Proof.Machine

/-! Safe runs: every step has a next state. -/

/-- An access that the window defines: inside it, aligned and 32 bits wide (20_memory.md rules R60 and R64). -/
def HostOp.legal : HostOp → Bool
  | .wr off n _ => decide (off < windowSize) && accessDefined off n
  | .rd off n => decide (off < windowSize) && accessDefined off n
  | .wait => true

/-- The one access that performs `Reset()`: a write of the CTRL word with bit 31 (10_state.md rule R25, 70_reset_and_hazards.md rule
R280). -/
def HostOp.resets : HostOp → Bool
  | .wr off _ v => decide (off = 0x008) && v.getLsbD 31
  | .rd _ _ | .wait => false

/-- A state from which no step stops: the configuration is accepted, every access of the Host's program is one the window
defines, and the platform keeps RST released (40_tables.md rule R123, 20_memory.md rule R64, 70_reset_and_hazards.md rule
R280). -/
def Safe (s : State) : Prop :=
  sboxBijective s.sboxTable = true ∧ (∀ op ∈ s.hostOps, op.legal = true) ∧ s.rst = false ∧ Turn.rst true ∉ s.turns

/-! The invariant. -/

/-- ERRCODE = 0 exactly when ERR = 0 (92_eei_decisions.md D37), TCOUNT is 0 or 60 (10_state.md rule R32), and BUSY = 1 only
with DONE = 0 (rule R24). -/
def StatusOk (st : Status) : Prop :=
  (st.errcode = .none ↔ st.err = false) ∧ (st.tcount = 0 ∨ st.tcount = 60) ∧ (st.busy = true → st.done = false)

/-- RKVALID = 1 only where W holds KeySchedule(KEY) for the current KEY (10_state.md rules R24 and R30). -/
def RoundKeysOk (s : State) : Prop := s.status.rkvalid = true → s.w = keySchedule s.sboxTable s.key

/-- The pipeline of a direction (44_pipeline.md rules R200 and R203). -/
def pipelineOf (d : Direction) (t : Vector Byte 256) (block : Block) (key : Key) : Pipeline :=
  match d with
  | .enc => encrypt t block key
  | .dec => decrypt t block key

/-- TRACE is empty while TCOUNT = 0, and while TCOUNT = 60 it is the whole trace of a pipeline of direction TDIR (10_state.md
rules R31, R32 and R39). -/
def TraceOk (s : State) : Prop :=
  (s.status.tcount = 0 → s.status.tdir = .enc ∧ ∀ n : Fin 60, s.trace[n] = emptyEntry) ∧
  (s.status.tcount = 60 → ∃ block key, s.trace = (pipelineOf s.status.tdir s.sboxTable block key).trace)

/-- While RST is asserted every register holds its reset value (70_reset_and_hazards.md rule R280). -/
def RstOk (s : State) : Prop := s.rst = true → s = resetEngine s

/-- The invariant of the machine. -/
def Inv (s : State) : Prop := StatusOk s.status ∧ RoundKeysOk s ∧ TraceOk s ∧ RstOk s

/-! Frames. -/

/-- STATUS as a command leaves it that writes no flag beyond the completion: BUSY = 0, DONE = 1, the other fields as they were
(60_exceptions.md rule R240). -/
def completedStatus (st : Status) : Status := { st with busy := false, done := true }

/-- STATUS after the error entry for `code` (60_exceptions.md rule R244). -/
def failedStatus (code : ErrCode) (st : Status) : Status :=
  { completedStatus st with err := true, errcode := if st.err then st.errcode else code }

/-- `t` is `s` completed, with nothing else changed but STATE. -/
def OnlyStateWritten (s t : State) : Prop := t = { s with state := t.state, status := completedStatus s.status }

/-- `t` is `s` completed, with nothing else changed but RESULT. -/
def OnlyResultWritten (s t : State) : Prop := t = { s with result := t.result, status := completedStatus s.status }

/-- `t` is `s` ended in the error `code`, with nothing else changed. -/
def OnlyErrorReported (code : ErrCode) (s t : State) : Prop := t = { s with status := failedStatus code s.status }

/-- The places of the window whose word a completed command may change: the STATUS word, and the command's destinations
(30_encoding.md rule R103). -/
def writesPlace (i : Instr) (r : WindowReg) : Bool :=
  match r with
  | .status => true
  | .result => match i with
    | .sbox _ | .isbox _ | .gfmul _ _ => true
    | _ => false
  | .state _ => match i with
    | .bsf | .bsi | .trn | .subb | .isubb | .shrows | .ishrows | .mixcol | .imixcol | .ark _ | .enc | .dec => true
    | _ => false
  | .w _ => match i with
    | .kexp | .enc | .dec => true
    | _ => false
  | .trace _ _ => match i with
    | .enc | .dec => true
    | _ => false
  | .cmd | .ctrl | .key _ | .reserved => false

/-- The Host takes the next step of `s` and its oldest access is `op`; `u` is `s` with that turn and that access taken off (20_memory.md
rule R73). -/
def HostIsNext (op : HostOp) (s u : State) : Prop :=
  sboxBijective s.sboxTable = true ∧
  ((∃ ts, s.turns = .host :: ts) ∨ (s.turns = [] ∧ s.status.busy = false)) ∧
  (∃ rest, s.hostOps = op :: rest) ∧
  u = { s with turns := s.turns.tail, hostOps := s.hostOps.tail }

/-- The Engine takes the next step of `s` and has a command in flight; `u` is `s` with that turn taken off. -/
def EngineIsNext (s u : State) : Prop :=
  sboxBijective s.sboxTable = true ∧
  ((∃ ts, s.turns = .engine :: ts) ∨ s.turns = []) ∧
  s.status.busy = true ∧
  u = { s with turns := s.turns.tail }

/-- The product of two polynomials over GF(2), bit i the coefficient of x^i, taken without reduction. -/
def polynomialProduct (a : BitVec 16) (b : Byte) : BitVec 16 :=
  (List.range 8).foldl (fun acc i => if b.getLsbD i then acc ^^^ a <<< i else acc) 0

/-- The state after performing commands one after another, none where one of them stops: each is what the Engine does with it
(60_exceptions.md rule R254: "A host can step a pipeline by issuing the elementary commands"). -/
def performAll : List Instr → State → Option State
  | [], s => some s
  | i :: is, s =>
    match exec i s with
    | .next t => performAll is t
    | .fault _ => none
    | .refused _ => none

/-- The elementary commands of encrypt's steps 2 to 7, in P1C §4.6 order (44_pipeline.md rule R200). -/
def encryptCommands : List Instr :=
  [.bsf, .trn, .ark 0] ++
  middleRounds.flatMap (fun r => [.subb, .shrows, .mixcol, .ark r.val]) ++
  [.subb, .shrows, .ark 14]

/-- The elementary commands of decrypt's steps 3 to 7, in P1C §4.6 order (44_pipeline.md rule R203). -/
def decryptCommands : List Instr :=
  [.ark 14] ++
  middleRounds.reverse.flatMap (fun r => [.ishrows, .isubb, .ark r.val, .imixcol]) ++
  [.ishrows, .isubb, .ark 0, .trn, .bsi]

end Sys2Proof.Machine
end

