-- ==== Sys2Proof/Certificates/Slice0/Obligations.lean ====
section
/-! DEFINITION. The statements for the provers. Each docstring names the rule of spec/ that the statement formalises or rests on. -/

open Sys2Proof Sys2Proof.Machine

/-! Encoding. -/

/-- Decoding the encoding of a well-formed command gives it back, with every operand at every value its field admits (rests on
rules R100, R102, R103 and R107). -/
def Obligations.DecodeOfEncodeIsTheCommand : Prop :=
  ∀ i : Instr, i.wellFormed = true → decode (encode i) = .ok i

/-- A word that decodes is the encoding of what it decodes to, so each legal word has one meaning and each command one word
(rests on rules R100, R103 and R104). -/
def Obligations.LegalWordIsItsCommandsEncoding : Prop :=
  ∀ (c : Word) (i : Instr), decode c = .ok i → i.wellFormed = true ∧ encode i = c

/-- Rule R104: the three conditions of a legal word, the match and mask patterns they come to, and that a word that is not legal
ends in ILLEGAL_CMD with no other effect. -/
def Obligations.LegalWordsMatchThePatterns : Prop :=
  ∀ c : Word,
    ((∃ i, decode c = .ok i) ↔
      c.extractLsb' 0 8 ≤ (0x10 : Byte) ∧ c.extractLsb' 12 4 = (0 : BitVec 4) ∧
      (c.extractLsb' 8 4 ≠ (0 : BitVec 4) → c.extractLsb' 0 8 = (0x0E : Byte)) ∧
      (c.extractLsb' 16 8 ≠ (0 : Byte) →
        c.extractLsb' 0 8 = (0x01 : Byte) ∨ c.extractLsb' 0 8 = (0x02 : Byte) ∨ c.extractLsb' 0 8 = (0x03 : Byte)) ∧
      (c.extractLsb' 24 8 ≠ (0 : Byte) → c.extractLsb' 0 8 = (0x03 : Byte))) ∧
    ((∃ i, decode c = .ok i) ↔
      c &&& 0xFF00FFFF = 0x00000001 ∨ c &&& 0xFF00FFFF = 0x00000002 ∨ c &&& 0x0000FFFF = 0x00000003 ∨
      c &&& 0xFFFFF0FF = 0x0000000E ∨
      ∃ op ∈ [0x00, 0x04, 0x05, 0x06, 0x07, 0x08, 0x09, 0x0A, 0x0B, 0x0C, 0x0D, 0x0F, (0x10 : Word)], c &&& 0xFFFFFFFF = op) ∧
    ∀ s : State, s.cmd = c → (¬ ∃ i, decode c = .ok i) →
      ∃ t, engineStep s = .next t ∧ OnlyErrorReported .illegalCmd s t

/-- Rule R106: the opcodes 0x11 to 0xFF, and a nonzero field that the opcode does not use, end in ILLEGAL_CMD; the all-zero
word is NOP and the all-ones word is illegal. -/
def Obligations.ReservedEncodingsEndInIllegalCmd : Prop :=
  (∀ s : State,
    ((0x11 : Byte) ≤ fieldOP s.cmd ∨ fieldRSV s.cmd ≠ 0 ∨ (fieldR s.cmd ≠ 0 ∧ fieldOP s.cmd ≠ 0x0E) ∨
      (fieldA s.cmd ≠ 0 ∧ fieldOP s.cmd ≠ 0x01 ∧ fieldOP s.cmd ≠ 0x02 ∧ fieldOP s.cmd ≠ 0x03) ∨
      (fieldB s.cmd ≠ 0 ∧ fieldOP s.cmd ≠ 0x03)) →
    ∃ t, engineStep s = .next t ∧ OnlyErrorReported .illegalCmd s t) ∧
  decode 0x00000000 = .ok .nop ∧
  (∀ s : State, s.cmd = 0xFFFFFFFF → ∃ t, engineStep s = .next t ∧ OnlyErrorReported .illegalCmd s t)

/-- Words written out from the spec's encodings, at least one of each family, decode to the commands they stand for (95_test_vectors.md
V-C1, V-G1, V-S1, V-D1 and V-A1). -/
def Obligations.SpecWordsDecodeToTheirCommands : Prop :=
  decode 0x00000000 = .ok .nop ∧ decode 0x00530001 = .ok (.sbox 0x53) ∧ decode 0x00ED0002 = .ok (.isbox 0xED) ∧
  decode 0x83570003 = .ok (.gfmul 0x57 0x83) ∧ decode 0x00000004 = .ok .bsf ∧ decode 0x00000006 = .ok .trn ∧
  decode 0x00000007 = .ok .kexp ∧ decode 0x0000000A = .ok .shrows ∧ decode 0x0000020E = .ok (.ark 2) ∧
  decode 0x00000F0E = .ok (.ark 15) ∧ decode 0x0000000F = .ok .enc ∧ decode 0x00000010 = .ok .dec

/-! The Engine step and its errors. -/

/-- A step runs the decoded command: with a command in flight and the Engine to move, the step is `exec` of what CMD decodes to;
and the model's `withFetchWord` places a word so (rests on rules R20, R23 and R240). -/
def Obligations.StepRunsTheCommandInFlight : Prop :=
  (∀ (s u : State) (i : Instr), EngineIsNext s u → decode s.cmd = .ok i → step s = exec i u) ∧
  (∀ (s : State) (c : Word) (i : Instr), sboxBijective s.sboxTable = true → decode c = .ok i →
    step (s.withFetchWord 32 c.toNat) = exec i (s.withFetchWord 32 c.toNat))

/-- The same for a word that does not decode: the step is the error entry for ILLEGAL_CMD (rests on rules R240 and R241). -/
def Obligations.StepReportsAnIllegalWord : Prop :=
  ∀ (s u : State) (e : Illegal), EngineIsNext s u → decode s.cmd = .error e →
    ∃ t, step s = .next t ∧ OnlyErrorReported .illegalCmd u t

/-- Rules R244 and R246: the error entry keeps the first error, completes, and changes nothing else; the host learns of it by
STATUS, or by IRQ when ERRIE = 1; a command that ends in an error has had no effect before its error entry. -/
def Obligations.ErrorEntryKeepsTheFirstError : Prop :=
  (∀ s t : State, engineStep s = .next t → s.status.err = false → t.status.err = true →
    ∃ code : ErrCode, code ≠ .none ∧ t = raiseCmdError code s) ∧
  ∀ (code : ErrCode) (s : State),
    let t := raiseCmdError code s
    (s.status.err = false → t.status.err = true ∧ t.status.errcode = code) ∧
    (s.status.err = true → t.status.err = true ∧ t.status.errcode = s.status.errcode) ∧
    t.status.busy = false ∧ t.status.done = true ∧
    t.status.ovr = s.status.ovr ∧ t.status.rkvalid = s.status.rkvalid ∧ t.status.tcount = s.status.tcount ∧
    t.status.tdir = s.status.tdir ∧ t.state = s.state ∧ t.result = s.result ∧ t.w = s.w ∧ t.trace = s.trace ∧
    t.key = s.key ∧ t.cmd = s.cmd ∧ t.ctrl = s.ctrl ∧ t.rst = s.rst ∧ t.sboxTable = s.sboxTable ∧
    (s.ctrl.errie = true → irq t = true)

/-- Rules R105 and R242: a word meets several error conditions and reports the first of ILLEGAL_CMD, ROUND_RANGE, NO_KEY. -/
def Obligations.ArkReportsTheFirstErrorInOrder : Prop :=
  (∀ s : State, (∃ e, decode s.cmd = .error e) → ∃ t, engineStep s = .next t ∧ OnlyErrorReported .illegalCmd s t) ∧
  decode 0x00000F0E = .ok (.ark 15) ∧
  (∀ s : State, ∃ t, exec (.ark 15) s = .next t ∧ OnlyErrorReported .roundRange s t) ∧
  (∀ (s : State) (r : Nat), r < 15 → s.status.rkvalid = false →
    ∃ t, exec (.ark r) s = .next t ∧ OnlyErrorReported .noKey s t) ∧
  (∀ s : State, s.cmd = 0x00001F0E → ∃ t, engineStep s = .next t ∧ OnlyErrorReported .illegalCmd s t)

/-- Every command that `exec` performs ends with BUSY = 0 and DONE = 1, and none writes CMD, CTRL, KEY, OVR or anything outside
the engine's registers; only ARK can end in an error (rests on rules R23, R28, R240 and R241). -/
def Obligations.EveryCommandCompletesAndKeepsTheRest : Prop :=
  ∀ (i : Instr) (s : State), ∃ t, exec i s = .next t ∧
    t.status.busy = false ∧ t.status.done = true ∧ t.status.ovr = s.status.ovr ∧
    t.cmd = s.cmd ∧ t.ctrl = s.ctrl ∧ t.key = s.key ∧ t.rst = s.rst ∧ t.sboxTable = s.sboxTable ∧ t.draws = s.draws ∧
    t.hostOps = s.hostOps ∧ t.hostReads = s.hostReads ∧ t.turns = s.turns ∧
    ((∀ r, i ≠ .ark r) → t.status.err = s.status.err ∧ t.status.errcode = s.status.errcode)

/-- The frame over the window: when a command ends in a next state, every word of the window outside the command's destinations
and STATUS is what it was (rests on rules R63 and R103; `writesPlace` names the destinations). -/
def Obligations.CommandsChangeOnlyTheirPlaces : Prop :=
  ∀ (i : Instr) (s t : State) (off : Nat), exec i s = .next t → writesPlace i (regAt off) = false →
    heldWord t (regAt off) = heldWord s (regAt off)

/-! The commands that do not touch STATE. -/

/-- NOP completes and changes nothing else (rests on rules R125 and R240). -/
def Obligations.NopOnlyCompletes : Prop :=
  ∀ s : State, exec .nop s = .next { s with status := completedStatus s.status }

/-- SBOX and ISBOX write RESULT with the table's value and with its inverse, whatever bijective table is configured, and change
nothing else (rests on rules R121, R122, R126 and R127). -/
def Obligations.SboxAndIsboxWriteResult : Prop :=
  ∀ (s : State) (a : Byte),
    (∃ t, exec (.sbox a) s = .next t ∧ OnlyResultWritten s t ∧ t.result = s.sboxTable[a.toNat]) ∧
    (∃ t, exec (.isbox a) s = .next t ∧ OnlyResultWritten s t ∧
      (sboxBijective s.sboxTable = true → s.sboxTable[t.result.toNat] = a))

/-- GFMUL writes RESULT with the product modulo x^8 + x^4 + x^3 + x + 1: the polynomial product of A and B less a multiple of
0x11B, and changes nothing else (rests on rules R120 and R128). -/
def Obligations.GfmulWritesTheReducedProduct : Prop :=
  ∀ (s : State) (a b : Byte), ∃ t, exec (.gfmul a b) s = .next t ∧ OnlyResultWritten s t ∧
    ∃ q : Byte, polynomialProduct (a.setWidth 16) b = polynomialProduct 0x11B q ^^^ t.result.setWidth 16

/-- The laws of gfMul that rule R124 lists: zero and one on either side, distributivity over XOR in either argument,
commutativity, associativity, and one inverse of every nonzero byte (rests on rule R124, which marks all but the first three as
derived "from rule R120 being multiplication in GF(2^8)"). -/
def Obligations.GfMulFieldLaws : Prop :=
  (∀ a, gfMul a 0 = 0 ∧ gfMul 0 a = 0 ∧ gfMul 1 a = a ∧ gfMul a 1 = a) ∧
  (∀ a b c, gfMul a (b ^^^ c) = gfMul a b ^^^ gfMul a c) ∧
  (∀ a b c, gfMul (a ^^^ b) c = gfMul a c ^^^ gfMul b c) ∧
  (∀ a b, gfMul a b = gfMul b a) ∧
  (∀ a b c, gfMul a (gfMul b c) = gfMul (gfMul a b) c) ∧
  (∀ a, a ≠ 0 → ∃ b, gfMul a b = 1 ∧ ∀ b', gfMul a b' = 1 → b' = b)

/-- Rule R26: RESULT holds the last byte of SBOX, ISBOX or GFMUL in bits [7:0], its other bits are 0, and no other command
writes it. -/
def Obligations.ResultIsTheLastQuerysByte : Prop :=
  (∀ (s t : State) (a : Byte), exec (.sbox a) s = .next t → heldWord t .result = (sboxAt s.sboxTable a).setWidth 32) ∧
  (∀ (s t : State) (a : Byte), exec (.isbox a) s = .next t → heldWord t .result = (invSboxAt s.sboxTable a).setWidth 32) ∧
  (∀ (s t : State) (a b : Byte), exec (.gfmul a b) s = .next t → heldWord t .result = (gfMul a b).setWidth 32) ∧
  (∀ s : State, heldWord s .result >>> 8 = 0) ∧
  (∀ (i : Instr) (s t : State), exec i s = .next t → (∀ a, i ≠ .sbox a) → (∀ a, i ≠ .isbox a) → (∀ a b, i ≠ .gfmul a b) →
    t.result = s.result)

/-- Rule R123: the configuration check accepts exactly the bijective tables, a machine with another table is refused, and
both lookups are total and undo each other. -/
def Obligations.OnlyBijectiveSboxTablesRun : Prop :=
  (∀ t : Vector Byte 256, sboxBijective t = true ↔ Function.Bijective (sboxAt t)) ∧
  (∀ s : State, ¬ Function.Bijective (sboxAt s.sboxTable) → step s = .refused .sboxNotBijective) ∧
  (∀ (t : Vector Byte 256) (b : Byte), Function.Bijective (sboxAt t) →
    invSboxAt t (sboxAt t b) = b ∧ sboxAt t (invSboxAt t b) = b)

/-- The default table is the S-box of rule R121's formula: the inverse under gfMul, then the affine map (rests on rule R121, whose
formula the spec marks as general knowledge). -/
def Obligations.DefaultSboxIsInverseThenAffine : Prop :=
  ∀ x : Byte, ∃ y : Byte, (x = 0 → y = 0) ∧ (x ≠ 0 → gfMul x y = 1) ∧
    sboxAt fipsSbox x = y ^^^ y.rotateLeft 1 ^^^ y.rotateLeft 2 ^^^ y.rotateLeft 3 ^^^ y.rotateLeft 4 ^^^ 0x63

/-! The diffusion layer. -/

/-- BSF rotates every byte of STATE right by one bit, in P1C's formula and in the rule's, and changes nothing else (rests on rules
R135 and R140). -/
def Obligations.BsfRotatesEveryByteRight : Prop :=
  ∀ s : State, ∃ t, exec .bsf s = .next t ∧ OnlyStateWritten s t ∧
    ∀ p : Fin 16, t.state[p] = (s.state[p] >>> 1) ||| ((s.state[p] &&& 1) <<< 7) ∧
      t.state[p] = (s.state[p].extractLsb' 0 1 ++ s.state[p].extractLsb' 1 7 : BitVec 8)

/-- Rule R136: BSI rotates every byte of STATE left by one bit, in P1C's formula and in the rule's, and changes nothing else. -/
def Obligations.BsiRotatesEveryByteLeft : Prop :=
  ∀ s : State, ∃ t, exec .bsi s = .next t ∧ OnlyStateWritten s t ∧
    ∀ p : Fin 16, t.state[p] = (s.state[p] <<< 1) ||| (s.state[p] >>> 7) ∧
      t.state[p] = (s.state[p].extractLsb' 0 7 ++ s.state[p].extractLsb' 7 1 : BitVec 8)

/-- Rule R137: TRN swaps rows and columns, by row and column and by linear position; the diagonal bytes stay, and doing it twice
gives the value back. -/
def Obligations.TrnSwapsRowsAndColumns : Prop :=
  ∀ s : State, ∃ t, exec .trn s = .next t ∧ OnlyStateWritten s t ∧
    (∀ r c : Fin 4, t.state[r.val + 4 * c.val] = s.state[c.val + 4 * r.val]) ∧
    (∀ p : Fin 16, t.state[p] = s.state[4 * (p.val % 4) + p.val / 4]) ∧
    t.state[0] = s.state[0] ∧ t.state[5] = s.state[5] ∧ t.state[10] = s.state[10] ∧ t.state[15] = s.state[15] ∧
    transpose t.state = s.state

/-- Rule R138: the two rotations undo each other, neither is its own inverse, and transpose is. -/
def Obligations.DiffusionLayerInverses : Prop :=
  (∀ s : Block, bitshiftInverse (bitshiftForward s) = s) ∧ (∀ s : Block, bitshiftForward (bitshiftInverse s) = s) ∧
  (∀ s : Block, transpose (transpose s) = s) ∧
  (∀ (s : Block) (p : Fin 16), (bitshiftForward (bitshiftForward s))[p] = s[p].rotateRight 2) ∧
  (∀ (s : Block) (p : Fin 16), s[p] = 0x01 →
    (bitshiftForward s)[p] = 0x80 ∧ (bitshiftForward (bitshiftForward s))[p] = 0x40)

/-! The key schedule. -/

/-- The table RCON, and each Rcon(i) for i >= 2 is gfMul(0x02, Rcon(i-1)) (rests on rule R150, which marks the second part as its
own inference: "[derived: from 40_tables.md rule R120 of 40_tables.md, checked for every entry]"). -/
def Obligations.RconIsTheDoublingSequence : Prop :=
  rcon.toList = [0x00, 0x01, 0x02, 0x04, 0x08, 0x10, 0x20, 0x40, 0x80, 0x1B, 0x36, 0x6C, 0xD8, 0xAB, 0x4D] ∧
  ∀ i : Fin 15, 2 ≤ i.val → rcon[i] = gfMul 0x02 rcon[i.val - 1]

/-- Rules R151, R152 and R153: RotWord, SubWord and the XOR of words, byte by byte. -/
def Obligations.WordFunctionsActOnBytes : Prop :=
  (∀ a0 a1 a2 a3 : Byte, rotWord (wordOfBytes a0 a1 a2 a3) = wordOfBytes a1 a2 a3 a0) ∧
  (∀ (t : Vector Byte 256) (a0 a1 a2 a3 : Byte),
    subWord t (wordOfBytes a0 a1 a2 a3) = wordOfBytes (sboxAt t a0) (sboxAt t a1) (sboxAt t a2) (sboxAt t a3)) ∧
  (∀ a0 a1 a2 a3 b0 b1 b2 b3 : Byte,
    wordOfBytes a0 a1 a2 a3 ^^^ wordOfBytes b0 b1 b2 b3 =
      wordOfBytes (a0 ^^^ b0) (a1 ^^^ b1) (a2 ^^^ b2) (a3 ^^^ b3))

/-- Rule R160: KEXP writes W by the recurrence, each word with byte j in bits [8j+7:8j], sets RKVALID and changes nothing else; the
round keys are W's columns. -/
def Obligations.KexpWritesTheKeySchedule : Prop :=
  ∀ s : State, ∃ t, exec .kexp s = .next t ∧
    t = { s with w := t.w, status := { completedStatus s.status with rkvalid := true } } ∧
    (∀ (k : Fin 8) (j : Fin 4), t.w[k.val].extractLsb' (8 * j.val) 8 = s.key[4 * k.val + j.val]) ∧
    (∀ (i : Nat) (_ : 8 ≤ i) (_ : i < 60),
      (i % 8 = 0 → ∀ h : i / 8 < 15,
        t.w[i] = t.w[i - 8] ^^^ (subWord s.sboxTable (rotWord t.w[i - 1]) ^^^ (rcon[i / 8]).setWidth 32)) ∧
      (i % 8 = 4 → t.w[i] = t.w[i - 8] ^^^ subWord s.sboxTable t.w[i - 1]) ∧
      (i % 8 ≠ 0 → i % 8 ≠ 4 → t.w[i] = t.w[i - 8] ^^^ t.w[i - 1])) ∧
    (∀ (r : Fin 15) (p : Fin 16),
      (roundKey t.w r)[p] = t.w[4 * r.val + p.val / 4].extractLsb' (8 * (p.val % 4)) 8)

/-- RK(0) and RK(1) are the key itself (rests on rule R161). -/
def Obligations.FirstTwoRoundKeysAreTheKey : Prop :=
  ∀ (t : Vector Byte 256) (key : Key) (p : Fin 16),
    (roundKey (keySchedule t key) 0)[p] = key[p.val] ∧ (roundKey (keySchedule t key) 1)[p] = key[16 + p.val]

/-! The round operations. -/

/-- Rule R170: SUBB and ISUBB look up every byte of STATE, in SBOX and in INVSBOX, and change nothing else. -/
def Obligations.SubbAndIsubbLookUpEveryByte : Prop :=
  ∀ s : State,
    (∃ t, exec .subb s = .next t ∧ OnlyStateWritten s t ∧ ∀ p : Fin 16, t.state[p] = s.sboxTable[s.state[p].toNat]) ∧
    (∃ t, exec .isubb s = .next t ∧ OnlyStateWritten s t ∧ (∀ p : Fin 16, t.state[p] = invSboxAt s.sboxTable s.state[p]) ∧
      (sboxBijective s.sboxTable = true → ∀ p : Fin 16, s.sboxTable[t.state[p].toNat] = s.state[p]))

/-- Rule R171: SHROWS rotates row r left by r positions, so row 0 is unchanged, and changes nothing else. -/
def Obligations.ShrowsRotatesRowsLeft : Prop :=
  ∀ s : State, ∃ t, exec .shrows s = .next t ∧ OnlyStateWritten s t ∧
    (∀ r c : Fin 4, t.state[r.val + 4 * c.val] = s.state[r.val + 4 * ((c.val + r.val) % 4)]) ∧
    (∀ c : Fin 4, t.state[4 * c.val] = s.state[4 * c.val])

/-- Rule R172: ISHROWS rotates row r right by r positions, which is left by 4 - r, changes nothing else, and undoes SHROWS on
either side. -/
def Obligations.IshrowsRotatesRowsRight : Prop :=
  (∀ s : State, ∃ t, exec .ishrows s = .next t ∧ OnlyStateWritten s t ∧
    (∀ r c : Fin 4, t.state[r.val + 4 * ((c.val + r.val) % 4)] = s.state[r.val + 4 * c.val]) ∧
    (∀ r c : Fin 4, t.state[r.val + 4 * c.val] = s.state[r.val + 4 * ((c.val + (4 - r.val)) % 4)])) ∧
  (∀ s : Block, invShiftRows (shiftRows s) = s) ∧ (∀ s : Block, shiftRows (invShiftRows s) = s)

/-- Rule R173: MIXCOL transforms every column by the matrix whose first row is 02 03 01 01, and changes nothing else. -/
def Obligations.MixcolMultipliesEveryColumn : Prop :=
  ∀ s : State, ∃ t, exec .mixcol s = .next t ∧ OnlyStateWritten s t ∧
    ∀ c : Fin 4,
      t.state[4 * c.val] = gfMul 2 s.state[4 * c.val] ^^^ gfMul 3 s.state[4 * c.val + 1] ^^^ s.state[4 * c.val + 2] ^^^
        s.state[4 * c.val + 3] ∧
      t.state[4 * c.val + 1] = s.state[4 * c.val] ^^^ gfMul 2 s.state[4 * c.val + 1] ^^^ gfMul 3 s.state[4 * c.val + 2] ^^^
        s.state[4 * c.val + 3] ∧
      t.state[4 * c.val + 2] = s.state[4 * c.val] ^^^ s.state[4 * c.val + 1] ^^^ gfMul 2 s.state[4 * c.val + 2] ^^^
        gfMul 3 s.state[4 * c.val + 3] ∧
      t.state[4 * c.val + 3] = gfMul 3 s.state[4 * c.val] ^^^ s.state[4 * c.val + 1] ^^^ s.state[4 * c.val + 2] ^^^
        gfMul 2 s.state[4 * c.val + 3]

/-- IMIXCOL transforms every column by the circulant whose first row is 0E 0B 0D 09, changes nothing else, and the two column
transforms undo each other on every value (rests on rule R174; the arrangement is the spec's decision D16, log entry 14, and
that they undo each other is the spec's own inference, "checked on 200 random States by spec/tools/ref_model.py, not
proved"). -/
def Obligations.ImixcolInvertsMixcol : Prop :=
  (∀ s : State, ∃ t, exec .imixcol s = .next t ∧ OnlyStateWritten s t ∧
    ∀ c : Fin 4,
      t.state[4 * c.val] = gfMul 0x0E s.state[4 * c.val] ^^^ gfMul 0x0B s.state[4 * c.val + 1] ^^^
        gfMul 0x0D s.state[4 * c.val + 2] ^^^ gfMul 0x09 s.state[4 * c.val + 3] ∧
      t.state[4 * c.val + 1] = gfMul 0x09 s.state[4 * c.val] ^^^ gfMul 0x0E s.state[4 * c.val + 1] ^^^
        gfMul 0x0B s.state[4 * c.val + 2] ^^^ gfMul 0x0D s.state[4 * c.val + 3] ∧
      t.state[4 * c.val + 2] = gfMul 0x0D s.state[4 * c.val] ^^^ gfMul 0x09 s.state[4 * c.val + 1] ^^^
        gfMul 0x0E s.state[4 * c.val + 2] ^^^ gfMul 0x0B s.state[4 * c.val + 3] ∧
      t.state[4 * c.val + 3] = gfMul 0x0B s.state[4 * c.val] ^^^ gfMul 0x0D s.state[4 * c.val + 1] ^^^
        gfMul 0x09 s.state[4 * c.val + 2] ^^^ gfMul 0x0E s.state[4 * c.val + 3]) ∧
  (∀ s : Block, invMixColumns (mixColumns s) = s) ∧ (∀ s : Block, mixColumns (invMixColumns s) = s)

/-- Rule R175: with R in 0..14 and RKVALID = 1, ARK XORs round key R into STATE byte by byte and changes nothing else; the same
round key applied twice returns the original. -/
def Obligations.ArkXorsTheRoundKey : Prop :=
  (∀ (s : State) (r : Nat) (h : r < 15), s.status.rkvalid = true →
    ∃ t, exec (.ark r) s = .next t ∧ OnlyStateWritten s t ∧
      (∀ p : Fin 16, t.state[p] = s.state[p] ^^^ (roundKey s.w ⟨r, h⟩)[p]) ∧
      (∀ p : Fin 16, t.state[p] = s.state[p] ^^^ (s.w[4 * r + p.val / 4]).extractLsb' (8 * (p.val % 4)) 8)) ∧
  (∀ s k : Block, addRoundKey (addRoundKey s k) k = s)

/-! The pipelines. -/

/-- What ENC leaves. Every entry of TRACE by the table, each State from the one before it by its step, the first and last of
them; STATE is the ciphertext, W the key schedule; nothing else changes but RKVALID, TDIR, TCOUNT and the completion (rests on
rules R200 and R202, and on rule R206's table, which the spec marks "[derived: from rule R200]"). -/
def Obligations.EncWritesTheWholeTrace : Prop :=
  ∀ s : State, ∃ t, exec .enc s = .next t ∧
    t = { s with
      state := t.state
      w := keySchedule s.sboxTable s.key
      trace := t.trace
      status := { completedStatus s.status with rkvalid := true, tdir := .enc, tcount := 60 } } ∧
    (t.trace[0].kind = .input ∧ t.trace[0].round = 0 ∧ t.trace[0].hasrk = false ∧ t.trace[0].k = zeroBlock ∧
      t.trace[0].s = s.state) ∧
    (t.trace[1].kind = .bitshift ∧ t.trace[1].round = 0 ∧ t.trace[1].hasrk = false ∧ t.trace[1].k = zeroBlock ∧
      t.trace[1].s = bitshiftForward t.trace[0].s) ∧
    (t.trace[2].kind = .transpose ∧ t.trace[2].round = 0 ∧ t.trace[2].hasrk = false ∧ t.trace[2].k = zeroBlock ∧
      t.trace[2].s = transpose t.trace[1].s) ∧
    (t.trace[3].kind = .addRoundKey ∧ t.trace[3].round = 0 ∧ t.trace[3].hasrk = true ∧ t.trace[3].k = roundKey t.w 0 ∧
      t.trace[3].s = addRoundKey t.trace[2].s (roundKey t.w 0)) ∧
    (∀ r : Fin 15, 1 ≤ r.val → ∀ h : r.val ≤ 13,
      (t.trace[4 * r.val].kind = .subBytes ∧ t.trace[4 * r.val].round = BitVec.ofNat 4 r.val ∧
        t.trace[4 * r.val].hasrk = false ∧ t.trace[4 * r.val].k = zeroBlock ∧
        t.trace[4 * r.val].s = subBytes s.sboxTable t.trace[4 * r.val - 1].s) ∧
      (t.trace[4 * r.val + 1].kind = .shiftRows ∧ t.trace[4 * r.val + 1].round = BitVec.ofNat 4 r.val ∧
        t.trace[4 * r.val + 1].hasrk = false ∧ t.trace[4 * r.val + 1].k = zeroBlock ∧
        t.trace[4 * r.val + 1].s = shiftRows t.trace[4 * r.val].s) ∧
      (t.trace[4 * r.val + 2].kind = .mixColumns ∧ t.trace[4 * r.val + 2].round = BitVec.ofNat 4 r.val ∧
        t.trace[4 * r.val + 2].hasrk = false ∧ t.trace[4 * r.val + 2].k = zeroBlock ∧
        t.trace[4 * r.val + 2].s = mixColumns t.trace[4 * r.val + 1].s) ∧
      (t.trace[4 * r.val + 3].kind = .addRoundKey ∧ t.trace[4 * r.val + 3].round = BitVec.ofNat 4 r.val ∧
        t.trace[4 * r.val + 3].hasrk = true ∧ t.trace[4 * r.val + 3].k = roundKey t.w r ∧
        t.trace[4 * r.val + 3].s = addRoundKey t.trace[4 * r.val + 2].s (roundKey t.w r))) ∧
    (t.trace[56].kind = .subBytes ∧ t.trace[56].round = 14 ∧ t.trace[56].hasrk = false ∧ t.trace[56].k = zeroBlock ∧
      t.trace[56].s = subBytes s.sboxTable t.trace[55].s) ∧
    (t.trace[57].kind = .shiftRows ∧ t.trace[57].round = 14 ∧ t.trace[57].hasrk = false ∧ t.trace[57].k = zeroBlock ∧
      t.trace[57].s = shiftRows t.trace[56].s) ∧
    (t.trace[58].kind = .addRoundKey ∧ t.trace[58].round = 14 ∧ t.trace[58].hasrk = true ∧
      t.trace[58].k = roundKey t.w 14 ∧ t.trace[58].s = addRoundKey t.trace[57].s (roundKey t.w 14)) ∧
    (t.trace[59].kind = .output ∧ t.trace[59].round = 0 ∧ t.trace[59].hasrk = false ∧ t.trace[59].k = zeroBlock ∧
      t.trace[59].s = t.trace[58].s) ∧
    t.state = t.trace[59].s

/-- What DEC leaves, by the table of the decrypt trace, in the same way (rests on rules R203 and R204, and on rule R207's table, which
the spec marks "[derived: from rule R203]"). -/
def Obligations.DecWritesTheWholeTrace : Prop :=
  ∀ s : State, ∃ t, exec .dec s = .next t ∧
    t = { s with
      state := t.state
      w := keySchedule s.sboxTable s.key
      trace := t.trace
      status := { completedStatus s.status with rkvalid := true, tdir := .dec, tcount := 60 } } ∧
    (t.trace[0].kind = .input ∧ t.trace[0].round = 0 ∧ t.trace[0].hasrk = false ∧ t.trace[0].k = zeroBlock ∧
      t.trace[0].s = s.state) ∧
    (t.trace[1].kind = .addRoundKey ∧ t.trace[1].round = 14 ∧ t.trace[1].hasrk = true ∧ t.trace[1].k = roundKey t.w 14 ∧
      t.trace[1].s = addRoundKey t.trace[0].s (roundKey t.w 14)) ∧
    (∀ r : Fin 15, 1 ≤ r.val → ∀ h : r.val ≤ 13,
      (t.trace[2 + 4 * (13 - r.val)].kind = .invShiftRows ∧ t.trace[2 + 4 * (13 - r.val)].round = BitVec.ofNat 4 r.val ∧
        t.trace[2 + 4 * (13 - r.val)].hasrk = false ∧ t.trace[2 + 4 * (13 - r.val)].k = zeroBlock ∧
        t.trace[2 + 4 * (13 - r.val)].s = invShiftRows t.trace[1 + 4 * (13 - r.val)].s) ∧
      (t.trace[3 + 4 * (13 - r.val)].kind = .invSubBytes ∧ t.trace[3 + 4 * (13 - r.val)].round = BitVec.ofNat 4 r.val ∧
        t.trace[3 + 4 * (13 - r.val)].hasrk = false ∧ t.trace[3 + 4 * (13 - r.val)].k = zeroBlock ∧
        t.trace[3 + 4 * (13 - r.val)].s = invSubBytes s.sboxTable t.trace[2 + 4 * (13 - r.val)].s) ∧
      (t.trace[4 + 4 * (13 - r.val)].kind = .addRoundKey ∧ t.trace[4 + 4 * (13 - r.val)].round = BitVec.ofNat 4 r.val ∧
        t.trace[4 + 4 * (13 - r.val)].hasrk = true ∧ t.trace[4 + 4 * (13 - r.val)].k = roundKey t.w r ∧
        t.trace[4 + 4 * (13 - r.val)].s = addRoundKey t.trace[3 + 4 * (13 - r.val)].s (roundKey t.w r)) ∧
      (t.trace[5 + 4 * (13 - r.val)].kind = .invMixColumns ∧ t.trace[5 + 4 * (13 - r.val)].round = BitVec.ofNat 4 r.val ∧
        t.trace[5 + 4 * (13 - r.val)].hasrk = false ∧ t.trace[5 + 4 * (13 - r.val)].k = zeroBlock ∧
        t.trace[5 + 4 * (13 - r.val)].s = invMixColumns t.trace[4 + 4 * (13 - r.val)].s)) ∧
    (t.trace[54].kind = .invShiftRows ∧ t.trace[54].round = 0 ∧ t.trace[54].hasrk = false ∧ t.trace[54].k = zeroBlock ∧
      t.trace[54].s = invShiftRows t.trace[53].s) ∧
    (t.trace[55].kind = .invSubBytes ∧ t.trace[55].round = 0 ∧ t.trace[55].hasrk = false ∧ t.trace[55].k = zeroBlock ∧
      t.trace[55].s = invSubBytes s.sboxTable t.trace[54].s) ∧
    (t.trace[56].kind = .addRoundKey ∧ t.trace[56].round = 0 ∧ t.trace[56].hasrk = true ∧ t.trace[56].k = roundKey t.w 0 ∧
      t.trace[56].s = addRoundKey t.trace[55].s (roundKey t.w 0)) ∧
    (t.trace[57].kind = .invTranspose ∧ t.trace[57].round = 0 ∧ t.trace[57].hasrk = false ∧ t.trace[57].k = zeroBlock ∧
      t.trace[57].s = transpose t.trace[56].s) ∧
    (t.trace[58].kind = .invBitshift ∧ t.trace[58].round = 0 ∧ t.trace[58].hasrk = false ∧ t.trace[58].k = zeroBlock ∧
      t.trace[58].s = bitshiftInverse t.trace[57].s) ∧
    (t.trace[59].kind = .output ∧ t.trace[59].round = 0 ∧ t.trace[59].hasrk = false ∧ t.trace[59].k = zeroBlock ∧
      t.trace[59].s = t.trace[58].s) ∧
    t.state = t.trace[59].s

/-- Both traces have 60 steps: no entry is EMPTY, HASRK = 1 exactly where KIND is ADD_ROUND_KEY, every KIND code is at most
0x0D and every ROUND at most 14; SEQ is 60 at the end (rests on rules R10, R201, R205 and R208). -/
def Obligations.TracesAreSixtySteps : Prop :=
  ∀ (d : Direction) (t : Vector Byte 256) (block : Block) (key : Key),
    (pipelineOf d t block key).seq = 60 ∧
    ∀ n : Fin 60,
      (pipelineOf d t block key).trace[n].kind ≠ .empty ∧
      ((pipelineOf d t block key).trace[n].hasrk = true ↔ (pipelineOf d t block key).trace[n].kind = .addRoundKey) ∧
      (pipelineOf d t block key).trace[n].kind.code ≤ 0x0D ∧
      (pipelineOf d t block key).trace[n].round ≤ 14

/-- For every block and key and every bijective S-box, decrypting the encryption gives the block back, ENC then DEC with KEY
unchanged restores STATE, and the decrypt trace mirrors the encrypt trace (rests on rule R209, which the spec marks
"[derived: from rules R200 and R203"). -/
def Obligations.DecryptUndoesEncryptAndMirrorsItsTrace : Prop :=
  (∀ (t : Vector Byte 256) (block : Block) (key : Key), sboxBijective t = true →
    (decrypt t (encrypt t block key).s key).s = block ∧
    (∀ k : Nat, ∀ h : k ≤ 58,
      (decrypt t (encrypt t block key).s key).trace[k].s = (encrypt t block key).trace[58 - k].s) ∧
    (decrypt t (encrypt t block key).s key).trace[59].s = (encrypt t block key).trace[0].s) ∧
  (∀ s : State, sboxBijective s.sboxTable = true →
    ∃ t u, exec .enc s = .next t ∧ exec .dec t = .next u ∧ u.state = s.state)

/-- The effects of ENC and DEC on STATE, W and TRACE depend only on STATE and KEY (and the configured S-box), whatever the other
registers held (rests on rule R40, which the spec marks "[derived: from 44_pipeline.md rules R200 to R204]"). -/
def Obligations.PipelinesDependOnlyOnStateAndKey : Prop :=
  ∀ (i : Instr) (s s' : State), i = .enc ∨ i = .dec → s.state = s'.state → s.key = s'.key → s.sboxTable = s'.sboxTable →
    ∃ t t', exec i s = .next t ∧ exec i s' = .next t' ∧ t.state = t'.state ∧ t.w = t'.w ∧ t.trace = t'.trace ∧
      t.status.rkvalid = t'.status.rkvalid ∧ t.status.tcount = t'.status.tcount ∧ t.status.tdir = t'.status.tdir

/-- Stepping a pipeline with the elementary commands in P1C's order gives, after m of them, the State of trace entry m, for both
directions, when W holds the key schedule of KEY; and all of them give the pipeline's result (rests on rule R254). -/
def Obligations.ElementaryCommandsReproduceThePipelines : Prop :=
  ∀ s : State, s.status.rkvalid = true → s.w = keySchedule s.sboxTable s.key →
    (∀ m : Nat, ∀ h : m ≤ 58, ∃ t, performAll (encryptCommands.take m) s = some t ∧
      t.state = (encrypt s.sboxTable s.state s.key).trace[m].s) ∧
    (∀ m : Nat, ∀ h : m ≤ 58, ∃ t, performAll (decryptCommands.take m) s = some t ∧
      t.state = (decrypt s.sboxTable s.state s.key).trace[m].s) ∧
    (∃ t u, performAll encryptCommands s = some t ∧ exec .enc s = .next u ∧ t.state = u.state) ∧
    (∃ t u, performAll decryptCommands s = some t ∧ exec .dec s = .next u ∧ t.state = u.state)

/-! Reset. -/

/-- Rule R39: after reset every register holds the value of rule R22's reset column. -/
def Obligations.ResetLeavesEveryRegisterZero : Prop :=
  let s := State.reset
  s.cmd = 0 ∧ s.status.busy = false ∧ s.status.done = false ∧ s.status.err = false ∧ s.status.ovr = false ∧
  s.status.rkvalid = false ∧ s.status.tdir = .enc ∧ s.status.errcode = .none ∧ s.status.tcount = 0 ∧
  statusWord s.status = 0 ∧ ctrlWord s.ctrl = 0 ∧ irq s = false ∧ s.result = 0 ∧
  (∀ p : Fin 16, s.state[p] = 0) ∧ (∀ j : Fin 32, s.key[j] = 0) ∧ (∀ i : Fin 60, s.w[i] = 0) ∧
  (∀ n : Fin 60, s.trace[n].kind = .empty ∧ s.trace[n].round = 0 ∧ s.trace[n].hasrk = false ∧
    ∀ p : Fin 16, s.trace[n].s[p] = 0 ∧ s.trace[n].k[p] = 0)

/-- In the reset state ENC encrypts the all-zero block under the all-zero key, and ARK ends in NO_KEY (rests on rule R282, which the
spec marks "[derived: from rules R280, 44_pipeline.md rule R202 and 43_round_ops.md rule R186"). -/
def Obligations.ResetStateRunsEncAndRefusesArk : Prop :=
  (∃ t, exec .enc State.reset = .next t ∧
    t.state.toList =
      [0xDC, 0x95, 0xC0, 0x78, 0xA2, 0x40, 0x89, 0x89, 0xAD, 0x48, 0xA2, 0x14, 0x92, 0x84, 0x20, 0x87]) ∧
  ∀ r : Nat, r < 15 → ∃ t, exec (.ark r) State.reset = .next t ∧ OnlyErrorReported .noKey State.reset t

/-- Rule R280: both sources of reset, a CTRL write with bit 31 and the RST input, abandon the command in flight and put every
register at its reset value; the configured tables stay; an access while RST is asserted gets BusError. -/
def Obligations.BothResetSourcesReset : Prop :=
  (∀ (s u : State) (v : Word), HostIsNext (.wr 0x008 4 v) s u → s.rst = false → v.getLsbD 31 = true →
    step s = .next (resetEngine u)) ∧
  (∀ (s : State) (ts : List Turn), sboxBijective s.sboxTable = true → s.turns = .rst true :: ts →
    step s = .next (resetEngine { s with turns := ts, rst := true })) ∧
  (∀ u : State,
    let t := resetEngine u
    t.cmd = 0 ∧ statusWord t.status = 0 ∧ ctrlWord t.ctrl = 0 ∧ t.result = 0 ∧ t.state = State.reset.state ∧
    t.key = State.reset.key ∧ t.w = State.reset.w ∧ t.trace = State.reset.trace ∧ t.status = State.reset.status ∧
    irq t = false ∧ t.sboxTable = u.sboxTable) ∧
  (∀ (s u : State) (off n : Nat), HostIsNext (.rd off n) s u → s.rst = true → off < 0x2000 →
    step s = .fault (.busErrorRead off n 0)) ∧
  (∀ (s u : State) (off n : Nat) (v : Word), HostIsNext (.wr off n v) s u → s.rst = true → off < 0x2000 →
    step s = .fault (.busErrorWrite off n))

/-! The register window. -/

/-- Rule R68: what a host write of an aligned word does, offset by offset. -/
def Obligations.HostWriteByOffset : Prop :=
  ∀ (s u : State) (off : Nat) (v : Word), HostIsNext (.wr off 4 v) s u → s.rst = false → off < 0x2000 → off % 4 = 0 →
    ∃ t, step s = .next t ∧
      (off = 0x000 → u.status.busy = true → t = { u with status := { u.status with ovr := true } }) ∧
      (off = 0x000 → u.status.busy = false →
        t = { u with cmd := v, status := { u.status with busy := true, done := false } }) ∧
      (off = 0x004 →
        t = { u with status := { u.status with
          done := u.status.done && !v.getLsbD 1
          err := u.status.err && !v.getLsbD 2
          errcode := if v.getLsbD 2 then .none else u.status.errcode
          ovr := u.status.ovr && !v.getLsbD 3 } }) ∧
      (off = 0x008 → v.getLsbD 31 = true → t = resetEngine u) ∧
      (off = 0x008 → v.getLsbD 31 = false → t = { u with ctrl := { doneie := v.getLsbD 0, errie := v.getLsbD 1 } }) ∧
      (∀ c : Fin 4, off = 0x010 + 4 * c.val →
        (u.status.busy = true → t = { u with status := { u.status with ovr := true } }) ∧
        (u.status.busy = false → t = { u with state := t.state } ∧
          ∀ p : Fin 16, t.state[p] = if p.val / 4 = c.val then v.extractLsb' (8 * (p.val % 4)) 8 else u.state[p])) ∧
      (∀ k : Fin 8, off = 0x020 + 4 * k.val →
        (u.status.busy = true → t = { u with status := { u.status with ovr := true } }) ∧
        (u.status.busy = false → t = { u with key := t.key, status := { u.status with rkvalid := false } } ∧
          ∀ j : Fin 32, t.key[j] = if j.val / 4 = k.val then v.extractLsb' (8 * (j.val % 4)) 8 else u.key[j])) ∧
      (off = 0x00C ∨ 0x040 ≤ off → t = u)

/-- What a host read of an aligned word returns, offset by offset, and that it changes nothing but the list of values read and the
model's count of draws. A bit that the rules call a draw is the same bit of the unconstrained `Config.draw`, so the statement
holds whatever is drawn (rests on rules R63, R65, R69 and R290). Two clauses are the model's choice: that the drawn fields of one
STATUS read come from one `Config.draw` of a counter (log entry 2), and that the reserved words of a trace entry, which rule
R69 draws while BUSY = 1, read 0 then too, as rules R63 and R65 say (log entry 3). -/
def Obligations.HostReadByOffset : Prop :=
  ∀ (s u : State) (off : Nat), HostIsNext (.rd off 4) s u → s.rst = false → off < 0x2000 → off % 4 = 0 →
    ∃ (t : State) (x : Word), step s = .next t ∧ t = { u with hostReads := u.hostReads ++ [x], draws := t.draws } ∧
      (u.status.busy = false → t.draws = u.draws) ∧
      (off = 0x000 → x = u.cmd ∧ t.draws = u.draws) ∧
      (off = 0x004 →
        x.extractLsb' 24 8 = (0 : Byte) ∧ x.extractLsb' 12 4 = (0 : BitVec 4) ∧ x.extractLsb' 6 2 = (0 : BitVec 2) ∧
        x.extractLsb' 8 4 = u.status.errcode.code ∧ x.getLsbD 3 = u.status.ovr ∧ x.getLsbD 2 = u.status.err ∧
        x.getLsbD 1 = u.status.done ∧ x.getLsbD 0 = u.status.busy ∧
        (u.status.busy = false → x.extractLsb' 16 8 = u.status.tcount ∧ x.getLsbD 5 = decide (u.status.tdir = .dec) ∧
          x.getLsbD 4 = u.status.rkvalid) ∧
        (u.status.busy = true → t.draws = u.draws + 1 ∧
          x.extractLsb' 16 8 = (Config.draw u.draws).extractLsb' 16 8 ∧
          x.getLsbD 5 = (Config.draw u.draws).getLsbD 5 ∧ x.getLsbD 4 = (Config.draw u.draws).getLsbD 4)) ∧
      (off = 0x008 → x >>> 2 = 0 ∧ x.getLsbD 1 = u.ctrl.errie ∧ x.getLsbD 0 = u.ctrl.doneie ∧ t.draws = u.draws) ∧
      (∀ k : Fin 8, off = 0x020 + 4 * k.val →
        t.draws = u.draws ∧ ∀ j : Fin 4, x.extractLsb' (8 * j.val) 8 = u.key[4 * k.val + j.val]) ∧
      ((off = 0x00C ∨ (0x010 ≤ off ∧ off < 0x020) ∨ (0x100 ≤ off ∧ off < 0x1F0) ∨
          ∃ (n : Fin 60) (o : Nat), off = 0x1000 + 64 * n.val + o ∧ (o = 0 ∨ (0x10 ≤ o ∧ o < 0x30))) →
        u.status.busy = true → x = Config.draw u.draws ∧ t.draws = u.draws + 1) ∧
      (off = 0x00C → u.status.busy = false → x = u.result.setWidth 32) ∧
      (∀ c : Fin 4, off = 0x010 + 4 * c.val → u.status.busy = false →
        ∀ j : Fin 4, x.extractLsb' (8 * j.val) 8 = u.state[4 * c.val + j.val]) ∧
      (∀ i : Fin 60, off = 0x100 + 4 * i.val → u.status.busy = false → x = u.w[i]) ∧
      (∀ (n : Fin 60) (o : Nat), off = 0x1000 + 64 * n.val + o → o < 64 → u.status.busy = false →
        (u.status.tcount.toNat ≤ n.val → x = 0) ∧
        (n.val < u.status.tcount.toNat →
          (o = 0 → x.extractLsb' 13 19 = (0 : BitVec 19) ∧ x.getLsbD 12 = u.trace[n].hasrk ∧
            x.extractLsb' 8 4 = u.trace[n].round ∧ x.extractLsb' 0 8 = u.trace[n].kind.code) ∧
          (∀ c : Fin 4, o = 0x10 + 4 * c.val →
            ∀ j : Fin 4, x.extractLsb' (8 * j.val) 8 = u.trace[n].s[4 * c.val + j.val]) ∧
          (∀ c : Fin 4, o = 0x20 + 4 * c.val →
            ∀ j : Fin 4, x.extractLsb' (8 * j.val) 8 = u.trace[n].k[4 * c.val + j.val]))) ∧
      (∀ (n : Fin 60) (o : Nat), off = 0x1000 + 64 * n.val + o → (4 ≤ o ∧ o < 0x10) ∨ (0x30 ≤ o ∧ o < 0x40) →
        x = 0 ∧ t.draws = u.draws) ∧
      ((0x040 ≤ off ∧ off < 0x100) ∨ (0x1F0 ≤ off ∧ off < 0x1000) ∨ 0x1F00 ≤ off → x = 0 ∧ t.draws = u.draws)

/-- Rule R64: an access of another width, or misaligned, gets BusError: the Host's step faults, and a read answers 0. -/
def Obligations.UndefinedAccessesGetBusError : Prop :=
  (∀ (s u : State) (off n : Nat), HostIsNext (.rd off n) s u → off < 0x2000 → n ≠ 4 ∨ off % 4 ≠ 0 →
    step s = .fault (.busErrorRead off n 0)) ∧
  (∀ (s u : State) (off n : Nat) (v : Word), HostIsNext (.wr off n v) s u → off < 0x2000 → n ≠ 4 ∨ off % 4 ≠ 0 →
    step s = .fault (.busErrorWrite off n))

/-- Rule R70: a CMD write while BUSY = 0 is accepted, whatever the word; it is stored, BUSY is set and DONE cleared; ERR, ERRCODE and
OVR keep their values, and nothing is decoded. -/
def Obligations.CmdWriteIsAcceptedWhileIdle : Prop :=
  ∀ (s u : State) (v : Word), HostIsNext (.wr 0x000 4 v) s u → s.rst = false → u.status.busy = false →
    ∃ t, step s = .next t ∧ t.cmd = v ∧ t.status.busy = true ∧ t.status.done = false ∧ t.status.err = u.status.err ∧
      t.status.errcode = u.status.errcode ∧ t.status.ovr = u.status.ovr ∧
      t = { u with cmd := v, status := { u.status with busy := true, done := false } }

/-- Rule R71: an accepted write to a KEY word clears RKVALID, even if the bytes are the old ones, and leaves W; ARK then refuses the old
round keys. -/
def Obligations.KeyWriteInvalidatesTheRoundKeys : Prop :=
  ∀ (s u : State) (k : Fin 8) (v : Word), HostIsNext (.wr (0x020 + 4 * k.val) 4 v) s u → s.rst = false →
    u.status.busy = false →
    ∃ t, step s = .next t ∧ t.status.rkvalid = false ∧ t.w = u.w ∧
      (∀ j : Fin 4, t.key[4 * k.val + j.val] = v.extractLsb' (8 * j.val) 8) ∧
      ∀ r : Nat, r < 15 → ∃ t', exec (.ark r) t = .next t' ∧ OnlyErrorReported .noKey t t'

/-- Rule R72: while BUSY = 1 a write to CMD, to STATE or to KEY changes nothing but OVR, and writes to STATUS and CTRL are
performed. -/
def Obligations.WritesWhileBusyAreDiscarded : Prop :=
  ∀ (s u : State) (off : Nat) (v : Word), HostIsNext (.wr off 4 v) s u → s.rst = false → u.status.busy = true →
    (off % 4 = 0 → off = 0x000 ∨ (0x010 ≤ off ∧ off < 0x040) →
      step s = .next { u with status := { u.status with ovr := true } }) ∧
    (off = 0x004 → step s = .next { u with status := clearStatusBits v u.status }) ∧
    (off = 0x008 → v.getLsbD 31 = false → step s = .next { u with ctrl := ctrlOfWord v }) ∧
    (off = 0x008 → v.getLsbD 31 = true → step s = .next (resetEngine u))

/-- Rule R25: a CTRL write takes effect whatever BUSY is; with bit 31 it performs the reset and stores nothing, else it stores bits 1:0;
CTRL reads its two enables and 0 elsewhere, and each enables the interrupt line on its condition. -/
def Obligations.CtrlWriteEnablesOrResets : Prop :=
  (∀ (s u : State) (v : Word), HostIsNext (.wr 0x008 4 v) s u → s.rst = false →
    ∃ t, step s = .next t ∧
      (v.getLsbD 31 = true → t = resetEngine u ∧ ctrlWord t.ctrl = 0) ∧
      (v.getLsbD 31 = false → t = { u with ctrl := t.ctrl } ∧ t.ctrl.doneie = v.getLsbD 0 ∧ t.ctrl.errie = v.getLsbD 1 ∧
        ctrlWord t.ctrl = v &&& 3)) ∧
  (∀ s : State, heldWord s .ctrl >>> 2 = 0 ∧ drawMask .ctrl = 0) ∧
  (∀ s : State, (s.ctrl.doneie = true → s.status.done = true → irq s = true) ∧
    (s.ctrl.errie = true → s.status.err = true → irq s = true))

/-- The interrupt line is (DONE & DONEIE) | (ERR & ERRIE): any completion raises it when DONEIE = 1, clearing both pending bits drops
it, and a CTRL write that enables a pending source raises it at once (rests on rules R38 and R247). -/
def Obligations.IrqFollowsPendingAndEnable : Prop :=
  (∀ (i : Instr) (s t : State), exec i s = .next t → s.ctrl.doneie = true → irq t = true) ∧
  (∀ (s : State) (v : Word), v.getLsbD 1 = true → v.getLsbD 2 = true → irq (memWrite .status v s) = false) ∧
  (∀ (s : State) (v : Word), v.getLsbD 31 = false →
    (irq (memWrite .ctrl v s) = true ↔
      (s.status.done = true ∧ v.getLsbD 0 = true) ∨ (s.status.err = true ∧ v.getLsbD 1 = true))) ∧
  (∀ (s : State) (v : Word), s.status.busy = false → s.ctrl.errie = false → irq (memWrite .cmd v s) = false)

/-- No read has a side effect: it leaves every register and so every later read of any place as it was, and two reads with BUSY = 0
return the same value (rests on rules R66 and R290). -/
def Obligations.ReadsHaveNoSideEffect : Prop :=
  ∀ (r r' : WindowReg) (s : State),
    (memRead r s).2 = { s with draws := (memRead r s).2.draws } ∧
    heldWord (memRead r s).2 r' = heldWord s r' ∧
    (s.status.busy = false → memRead r (memRead r' s).2 = (heldWord s r, s)) ∧
    (drawMask r = 0 → (memRead r s).1 = heldWord s r ∧ (memRead r (memRead r s).2).1 = (memRead r s).1)

/-- While a command is in flight, no step of the Host changes the command, its operands or the registers it will write, unless
the Host's oldest access is a write of CTRL with bit 31, which is then taken off and resets; every other access can only
set or clear flags and enables (rests on rules R23, R25, R72, R76 and R248). -/
def Obligations.HostCannotDisturbTheCommandInFlight : Prop :=
  ∀ (s t : State), s.status.busy = true → hostTurn s = .next t →
    (∃ v rest, s.hostOps = .wr 0x008 4 v :: rest ∧ v.getLsbD 31 = true ∧ t = resetEngine { s with hostOps := rest }) ∨
    ((∀ op ∈ s.hostOps.head?, op.resets = false) ∧
      t.status.busy = true ∧ t.cmd = s.cmd ∧ t.state = s.state ∧ t.key = s.key ∧ t.w = s.w ∧ t.trace = s.trace ∧
      t.result = s.result ∧ t.status.rkvalid = s.status.rkvalid ∧ t.status.tcount = s.status.tcount ∧
      t.status.tdir = s.status.tdir ∧ t.sboxTable = s.sboxTable ∧ t.rst = s.rst ∧ t.turns = s.turns)

/-! The whole machine. -/

/-- The invariant holds right after reset. -/
def Obligations.InvariantHoldsAtReset : Prop := Inv State.reset

/-- Every step keeps the invariant: RKVALID = 1 only where W is the key schedule of KEY, TRACE is empty or one whole pipeline's trace of
direction TDIR, ERRCODE = 0 exactly where ERR = 0, TCOUNT is 0 or 60, BUSY excludes DONE, and RST holds the registers at
reset (rests on rules R24, R30, R31, R32 and R280). -/
def Obligations.EveryStepKeepsTheInvariant : Prop :=
  ∀ s t : State, Inv s → step s = .next t → Inv t

/-- No step changes the configured S-box (rests on rule R33). -/
def Obligations.NoStepChangesTheSboxTable : Prop :=
  ∀ s t : State, step s = .next t → t.sboxTable = s.sboxTable

/-- A safe state never stops: its step has a next state, which is safe. -/
def Obligations.SafeStatesStepToSafeStates : Prop :=
  ∀ s : State, Safe s → ∃ t, step s = .next t ∧ Safe t

/-- An enabled Engine step is eventually taken. From a safe state with a command in flight whose Host makes no reset write, the
command completes: within as many steps as the schedule has turns the Engine is to move, with the command and its operands
as they were, and its step sets DONE and clears BUSY. Where the Host may also reset, which abandons the command, BUSY still
falls within one step more than the schedule has turns (rests on rules R240, R280 and R295; that the schedule is finite and
the Engine moves after it is the model's form of fairness, log entry 4). -/
def Obligations.CommandInFlightCompletesWithinTheSchedule : Prop :=
  (∀ s : State, Safe s → s.status.busy = true → (∀ op ∈ s.hostOps, op.resets = false) →
    ∃ (n : Nat) (t u v : State), n ≤ s.turns.length ∧ Sys2Proof.core.run n s = .next t ∧ EngineIsNext t u ∧
      u.cmd = s.cmd ∧ u.state = s.state ∧ u.key = s.key ∧ u.w = s.w ∧ u.status.rkvalid = s.status.rkvalid ∧
      u.sboxTable = s.sboxTable ∧
      step t = engineStep u ∧ step t = .next v ∧ v.status.busy = false ∧ v.status.done = true) ∧
  (∀ s : State, Safe s → s.status.busy = true →
    ∃ (n : Nat) (t : State), n ≤ s.turns.length + 1 ∧ Sys2Proof.core.run n s = .next t ∧ t.status.busy = false)

/-- The codec's block is the text's first 16 bytes with 0x00 after them, and the text of a block has one character a byte, in order
(rests on rules R212 and R213). -/
def Obligations.CodecPadsAndTruncates : Prop :=
  (∀ input : List Char, textToState input = blockOfBytes (Config.encodeText input)) ∧
  (∀ (bytes : List Byte) (p : Fin 16),
    (∀ h : p.val < bytes.length, (blockOfBytes bytes)[p] = bytes[p.val]) ∧
    (bytes.length ≤ p.val → (blockOfBytes bytes)[p] = 0)) ∧
  (∀ b : Block, (stateToText b).length = 16 ∧ ∀ p : Fin 16, (stateToText b)[p.val]? = some (Config.decodeByte b[p]))

/-- A read of a reserved offset, inside a trace entry or outside, returns 0, and a write to one or to RESULT, W or TRACE is ignored,
whatever BUSY is; neither raises an error or sets OVR (rests on rules R63 and R65; that the reserved words of a trace entry
keep to them while BUSY = 1, where rule R69 gives a draw, is log entry 3). -/
def Obligations.ReservedOffsetsReadZeroAndIgnoreWrites : Prop :=
  (∀ (s u : State) (off : Nat), HostIsNext (.rd off 4) s u → s.rst = false → off < 0x2000 → off % 4 = 0 →
    (0x040 ≤ off ∧ off < 0x100) ∨ (0x1F0 ≤ off ∧ off < 0x1000) ∨ 0x1F00 ≤ off ∨
      (∃ n : Fin 60, (0x1004 + 64 * n.val ≤ off ∧ off ≤ 0x100C + 64 * n.val) ∨
        (0x1030 + 64 * n.val ≤ off ∧ off ≤ 0x103C + 64 * n.val)) →
    step s = .next { u with hostReads := u.hostReads ++ [0] }) ∧
  (∀ (s u : State) (off : Nat) (v : Word), HostIsNext (.wr off 4 v) s u → s.rst = false → off < 0x2000 → off % 4 = 0 →
    off = 0x00C ∨ 0x040 ≤ off → step s = .next u)
end

