-- ==== Sys2Proof/Laws/Block.lean ====
section
/-! SUPPORT. The small lemmas of the 16-byte values, of words as bytes, and of the window's offsets. -/

namespace Sys2Proof.Machine

/-! Rows and columns. -/

@[simp] theorem rc_blockOfRC (f : Fin 4 → Fin 4 → Byte) (r c : Fin 4) : Block.rc (blockOfRC f) r c = f r c := by
  simp only [Block.rc, blockOfRC, Vector.getElem_ofFn]
  congr 1 <;> exact Fin.ext (by simp only []; omega)

/-- Byte p of a value built by rows and columns. -/
theorem getElem_blockOfRC (f : Fin 4 → Fin 4 → Byte) (p : Nat) (h : p < 16) :
    (blockOfRC f)[p] = f ⟨p % 4, by omega⟩ ⟨p / 4, by omega⟩ := by
  simp only [blockOfRC, Vector.getElem_ofFn]

/-- Two values with the same rows and columns are the same value. -/
theorem block_ext_rc {a b : Block} (h : ∀ r c : Fin 4, Block.rc a r c = Block.rc b r c) : a = b := by
  refine Vector.ext fun p hp => ?_
  have := h ⟨p % 4, by omega⟩ ⟨p / 4, by omega⟩
  simpa only [Block.rc, Nat.mod_add_div] using this

@[simp] theorem blockOfRC_rc (s : Block) : blockOfRC (Block.rc s) = s :=
  block_ext_rc fun r c => rc_blockOfRC (Block.rc s) r c

/-- `s[r, c]` is byte r + 4c. -/
theorem rc_eq_getElem (s : Block) (r c : Fin 4) : Block.rc s r c = s[r.val + 4 * c.val] := rfl

/-! Bytes of a word. -/

/-- Byte j of the word {b3, b2, b1, b0} is bj. -/
theorem wordByte_wordOfBytes (b0 b1 b2 b3 : Byte) :
    wordByte (wordOfBytes b0 b1 b2 b3) 0 = b0 ∧ wordByte (wordOfBytes b0 b1 b2 b3) 1 = b1 ∧
    wordByte (wordOfBytes b0 b1 b2 b3) 2 = b2 ∧ wordByte (wordOfBytes b0 b1 b2 b3) 3 = b3 := by
  refine ⟨?_, ?_, ?_, ?_⟩ <;> ext i hi <;>
    simp only [wordByte, wordOfBytes, BitVec.getElem_extractLsb', BitVec.getLsbD_append] <;>
    (repeat' split) <;> first | omega | (simp only [← BitVec.getLsbD_eq_getElem]; congr 1; omega)

/-- A word is made of its bytes. -/
theorem wordOfBytes_wordByte (w : Word) :
    wordOfBytes (wordByte w 0) (wordByte w 1) (wordByte w 2) (wordByte w 3) = w := by
  refine BitVec.eq_of_getLsbD_eq fun i hi => ?_
  simp only [wordByte, wordOfBytes, BitVec.getLsbD_append, BitVec.getLsbD_extractLsb']
  obtain h | h | h | h : i < 8 ∨ (8 ≤ i ∧ i < 16) ∨ (16 ≤ i ∧ i < 24) ∨ 24 ≤ i := by omega
  · simp [h]
  · simp [show ¬ i < 8 by omega, show i - 8 < 8 by omega, show 8 + (i - 8) = i by omega]
  · simp [show ¬ i < 8 by omega, show ¬ i - 8 < 8 by omega, show i - 8 - 8 < 8 by omega,
      show 16 + (i - 8 - 8) = i by omega]
  · simp [show ¬ i < 8 by omega, show ¬ i - 8 < 8 by omega, show ¬ i - 8 - 8 < 8 by omega,
      show i - 8 - 8 - 8 < 8 by omega, show 24 + (i - 8 - 8 - 8) = i by omega]

end Sys2Proof.Machine
end

