-- ==== Sys2Proof/Laws/PerInstr.lean ====
section
/-! SUPPORT. Statements made once for each command of the syntax. -/

/-- Rule R100's opcode field of a command's word is the command's opcode, whatever its operands. -/
def Sys2Proof.Laws.OpcodeField.Statement (i : Sys2Proof.Instr) : Prop :=
  Sys2Proof.fieldOP (Sys2Proof.encode i) = Sys2Proof.opcode i

namespace Sys2Proof.Laws.OpcodeField

/-- The low byte of a word made from its fields is its opcode. -/
theorem fieldOP_encodeFields (b a : Byte) (r : BitVec 4) (op : Byte) : fieldOP (encodeFields b a r op) = op := by
  unfold fieldOP encodeFields
  rw [BitVec.extractLsb'_append_eq_of_add_le (by decide), BitVec.extractLsb'_eq_self]

theorem nop : Statement .nop := fieldOP_encodeFields ..
theorem sbox (a : Byte) : Statement (.sbox a) := fieldOP_encodeFields ..
theorem isbox (a : Byte) : Statement (.isbox a) := fieldOP_encodeFields ..
theorem gfmul (a b : Byte) : Statement (.gfmul a b) := fieldOP_encodeFields ..
theorem bsf : Statement .bsf := fieldOP_encodeFields ..
theorem bsi : Statement .bsi := fieldOP_encodeFields ..
theorem trn : Statement .trn := fieldOP_encodeFields ..
theorem kexp : Statement .kexp := fieldOP_encodeFields ..
theorem subb : Statement .subb := fieldOP_encodeFields ..
theorem isubb : Statement .isubb := fieldOP_encodeFields ..
theorem shrows : Statement .shrows := fieldOP_encodeFields ..
theorem ishrows : Statement .ishrows := fieldOP_encodeFields ..
theorem mixcol : Statement .mixcol := fieldOP_encodeFields ..
theorem imixcol : Statement .imixcol := fieldOP_encodeFields ..
theorem ark (r : Nat) : Statement (.ark r) := fieldOP_encodeFields ..
theorem enc : Statement .enc := fieldOP_encodeFields ..
theorem dec : Statement .dec := fieldOP_encodeFields ..

end Sys2Proof.Laws.OpcodeField
end

