-- ==== Sys2Proof/Laws/Pipelines.lean ====
section
/-! SUPPORT. What one emit, one stage and one round do to a running pipeline: SEQ, the working value, and each entry of the trace. -/

namespace Sys2Proof.Machine

variable (f : Block → Block) (kind : StepKind) (round : Nat) (k : Option Block) (p : Pipeline) (t : Vector Byte 256)
  (w : ExpandedKey) (r : Fin 15)

/-- The entry an emit writes. -/
def entryOf (kind : StepKind) (round : Nat) (k : Option Block) (s : Block) : TraceEntry :=
  { kind := kind, round := BitVec.ofNat 4 round, hasrk := k.isSome, s := s, k := k.getD zeroBlock }

@[simp] theorem emit_seq : (emit kind round k p).seq = p.seq + 1 := rfl
@[simp] theorem emit_s : (emit kind round k p).s = p.s := rfl

/-- An emit writes the entry at SEQ and no other. -/
theorem emit_trace (i : Nat) (h : i < 60) :
    (emit kind round k p).trace[i] = if p.seq = i then entryOf kind round k p.s else p.trace[i] :=
  Vector.getElem_setIfInBounds h

@[simp] theorem stage_seq : (stage f kind round p).seq = p.seq + 1 := rfl
@[simp] theorem stage_s : (stage f kind round p).s = f p.s := rfl

theorem stage_trace (i : Nat) (h : i < 60) :
    (stage f kind round p).trace[i] = if p.seq = i then entryOf kind round none (f p.s) else p.trace[i] :=
  emit_trace kind round none _ i h

@[simp] theorem keyStage_seq : (keyStage w r p).seq = p.seq + 1 := rfl
@[simp] theorem keyStage_s : (keyStage w r p).s = addRoundKey p.s (roundKey w r) := rfl

theorem keyStage_trace (i : Nat) (h : i < 60) :
    (keyStage w r p).trace[i] =
      if p.seq = i then entryOf .addRoundKey r.val (some (roundKey w r)) (addRoundKey p.s (roundKey w r)) else p.trace[i] :=
  emit_trace _ _ _ _ i h

@[simp] theorem beginPipeline_seq (s : Block) : (beginPipeline s).seq = 1 := rfl
@[simp] theorem beginPipeline_s (s : Block) : (beginPipeline s).s = s := rfl

@[simp] theorem encryptRound_seq : (encryptRound t w p r).seq = p.seq + 4 := rfl
@[simp] theorem decryptRound_seq : (decryptRound t w p r).seq = p.seq + 4 := rfl

@[simp] theorem encryptRound_s :
    (encryptRound t w p r).s = addRoundKey (mixColumns (shiftRows (subBytes t p.s))) (roundKey w r) := rfl

@[simp] theorem decryptRound_s :
    (decryptRound t w p r).s = invMixColumns (addRoundKey (invSubBytes t (invShiftRows p.s)) (roundKey w r)) := rfl

/-- A round of encrypt writes the four entries from SEQ on. -/
theorem encryptRound_trace (i : Nat) (h : i < 60) :
    (encryptRound t w p r).trace[i] =
      if p.seq + 3 = i then
        entryOf .addRoundKey r.val (some (roundKey w r))
          (addRoundKey (mixColumns (shiftRows (subBytes t p.s))) (roundKey w r))
      else if p.seq + 2 = i then entryOf .mixColumns r.val none (mixColumns (shiftRows (subBytes t p.s)))
      else if p.seq + 1 = i then entryOf .shiftRows r.val none (shiftRows (subBytes t p.s))
      else if p.seq = i then entryOf .subBytes r.val none (subBytes t p.s)
      else p.trace[i] := by
  simp only [encryptRound, keyStage_trace, stage_trace, stage_seq, stage_s, Nat.add_assoc, Nat.reduceAdd]

/-- A round of decrypt writes the four entries from SEQ on. -/
theorem decryptRound_trace (i : Nat) (h : i < 60) :
    (decryptRound t w p r).trace[i] =
      if p.seq + 3 = i then
        entryOf .invMixColumns r.val none
          (invMixColumns (addRoundKey (invSubBytes t (invShiftRows p.s)) (roundKey w r)))
      else if p.seq + 2 = i then
        entryOf .addRoundKey r.val (some (roundKey w r)) (addRoundKey (invSubBytes t (invShiftRows p.s)) (roundKey w r))
      else if p.seq + 1 = i then entryOf .invSubBytes r.val none (invSubBytes t (invShiftRows p.s))
      else if p.seq = i then entryOf .invShiftRows r.val none (invShiftRows p.s)
      else p.trace[i] := by
  simp only [decryptRound, keyStage_trace, stage_trace, stage_seq, stage_s, keyStage_seq, keyStage_s, Nat.add_assoc,
    Nat.reduceAdd]

end Sys2Proof.Machine
end

