-- ==== Sys2Proof/Laws/RoundOps.lean ====
section
/-! SUPPORT. One spec lemma for each function on 16-byte values: its bytes, by row and column or by linear position. -/

namespace Sys2Proof.Machine

variable (t : Vector Byte 256) (s k : Block) (w : ExpandedKey) (r c : Fin 4)

@[simp] theorem transpose_rc : Block.rc (transpose s) r c = Block.rc s c r := rc_blockOfRC _ r c

@[simp] theorem shiftRows_rc : Block.rc (shiftRows s) r c = Block.rc s r (c + r) := rc_blockOfRC _ r c

@[simp] theorem invShiftRows_rc : Block.rc (invShiftRows s) r c = Block.rc s r (c - r) := rc_blockOfRC _ r c

theorem mixColumns_rc :
    Block.rc (mixColumns s) 0 c =
      gfMul 2 (Block.rc s 0 c) ^^^ gfMul 3 (Block.rc s 1 c) ^^^ Block.rc s 2 c ^^^ Block.rc s 3 c ∧
    Block.rc (mixColumns s) 1 c =
      Block.rc s 0 c ^^^ gfMul 2 (Block.rc s 1 c) ^^^ gfMul 3 (Block.rc s 2 c) ^^^ Block.rc s 3 c ∧
    Block.rc (mixColumns s) 2 c =
      Block.rc s 0 c ^^^ Block.rc s 1 c ^^^ gfMul 2 (Block.rc s 2 c) ^^^ gfMul 3 (Block.rc s 3 c) ∧
    Block.rc (mixColumns s) 3 c =
      gfMul 3 (Block.rc s 0 c) ^^^ Block.rc s 1 c ^^^ Block.rc s 2 c ^^^ gfMul 2 (Block.rc s 3 c) :=
  ⟨rc_blockOfRC _ 0 c, rc_blockOfRC _ 1 c, rc_blockOfRC _ 2 c, rc_blockOfRC _ 3 c⟩

theorem invMixColumns_rc :
    Block.rc (invMixColumns s) 0 c =
      gfMul 0x0E (Block.rc s 0 c) ^^^ gfMul 0x0B (Block.rc s 1 c) ^^^ gfMul 0x0D (Block.rc s 2 c) ^^^
        gfMul 0x09 (Block.rc s 3 c) ∧
    Block.rc (invMixColumns s) 1 c =
      gfMul 0x09 (Block.rc s 0 c) ^^^ gfMul 0x0E (Block.rc s 1 c) ^^^ gfMul 0x0B (Block.rc s 2 c) ^^^
        gfMul 0x0D (Block.rc s 3 c) ∧
    Block.rc (invMixColumns s) 2 c =
      gfMul 0x0D (Block.rc s 0 c) ^^^ gfMul 0x09 (Block.rc s 1 c) ^^^ gfMul 0x0E (Block.rc s 2 c) ^^^
        gfMul 0x0B (Block.rc s 3 c) ∧
    Block.rc (invMixColumns s) 3 c =
      gfMul 0x0B (Block.rc s 0 c) ^^^ gfMul 0x0D (Block.rc s 1 c) ^^^ gfMul 0x09 (Block.rc s 2 c) ^^^
        gfMul 0x0E (Block.rc s 3 c) :=
  ⟨rc_blockOfRC _ 0 c, rc_blockOfRC _ 1 c, rc_blockOfRC _ 2 c, rc_blockOfRC _ 3 c⟩

variable (p : Nat) (h : p < 16)

theorem getElem_bitshiftForward : (bitshiftForward s)[p] = s[p].rotateRight 1 := Vector.getElem_ofFn h

theorem getElem_bitshiftInverse : (bitshiftInverse s)[p] = s[p].rotateLeft 1 := Vector.getElem_ofFn h

theorem getElem_subBytes : (subBytes t s)[p] = sboxAt t s[p] := Vector.getElem_ofFn h

theorem getElem_invSubBytes : (invSubBytes t s)[p] = invSboxAt t s[p] := Vector.getElem_ofFn h

theorem getElem_addRoundKey : (addRoundKey s k)[p] = s[p] ^^^ k[p] := Vector.getElem_ofFn h

theorem getElem_roundKey (r : Fin 15) : (roundKey w r)[p] = wordByte w[4 * r.val + p / 4] (p % 4) :=
  Vector.getElem_ofFn h

/-- `transpose(s)[p] = s[4*(p mod 4) + (p div 4)]` (41_diffusion.md rule R137). -/
theorem getElem_transpose : (transpose s)[p] = s[4 * (p % 4) + p / 4] := by
  simp only [transpose, getElem_blockOfRC _ p h, rc_eq_getElem]
  congr 1
  omega

end Sys2Proof.Machine
end

