-- ==== Sys2Proof/Laws/State.lean ====
section
/-! SUPPORT. One lemma for each field of State under each named update, true by rfl, so that no later proof unfolds a record
update. -/

namespace Sys2Proof.Machine

/-! The fields after `acceptCommand`. -/

@[simp] theorem acceptCommand_cmd (v : Word) (s : State) : (acceptCommand v s).cmd = v := rfl
@[simp] theorem acceptCommand_status (v : Word) (s : State) : (acceptCommand v s).status = { s.status with busy := true, done := false } := rfl
@[simp] theorem acceptCommand_ctrl (v : Word) (s : State) : (acceptCommand v s).ctrl = s.ctrl := rfl
@[simp] theorem acceptCommand_result (v : Word) (s : State) : (acceptCommand v s).result = s.result := rfl
@[simp] theorem acceptCommand_state (v : Word) (s : State) : (acceptCommand v s).state = s.state := rfl
@[simp] theorem acceptCommand_key (v : Word) (s : State) : (acceptCommand v s).key = s.key := rfl
@[simp] theorem acceptCommand_w (v : Word) (s : State) : (acceptCommand v s).w = s.w := rfl
@[simp] theorem acceptCommand_trace (v : Word) (s : State) : (acceptCommand v s).trace = s.trace := rfl
@[simp] theorem acceptCommand_rst (v : Word) (s : State) : (acceptCommand v s).rst = s.rst := rfl
@[simp] theorem acceptCommand_sboxTable (v : Word) (s : State) : (acceptCommand v s).sboxTable = s.sboxTable := rfl
@[simp] theorem acceptCommand_draws (v : Word) (s : State) : (acceptCommand v s).draws = s.draws := rfl
@[simp] theorem acceptCommand_hostOps (v : Word) (s : State) : (acceptCommand v s).hostOps = s.hostOps := rfl
@[simp] theorem acceptCommand_hostReads (v : Word) (s : State) : (acceptCommand v s).hostReads = s.hostReads := rfl
@[simp] theorem acceptCommand_turns (v : Word) (s : State) : (acceptCommand v s).turns = s.turns := rfl

/-! The fields after `complete`. -/

@[simp] theorem complete_cmd (s : State) : (complete s).cmd = s.cmd := rfl
@[simp] theorem complete_status (s : State) : (complete s).status = completedStatus s.status := rfl
@[simp] theorem complete_ctrl (s : State) : (complete s).ctrl = s.ctrl := rfl
@[simp] theorem complete_result (s : State) : (complete s).result = s.result := rfl
@[simp] theorem complete_state (s : State) : (complete s).state = s.state := rfl
@[simp] theorem complete_key (s : State) : (complete s).key = s.key := rfl
@[simp] theorem complete_w (s : State) : (complete s).w = s.w := rfl
@[simp] theorem complete_trace (s : State) : (complete s).trace = s.trace := rfl
@[simp] theorem complete_rst (s : State) : (complete s).rst = s.rst := rfl
@[simp] theorem complete_sboxTable (s : State) : (complete s).sboxTable = s.sboxTable := rfl
@[simp] theorem complete_draws (s : State) : (complete s).draws = s.draws := rfl
@[simp] theorem complete_hostOps (s : State) : (complete s).hostOps = s.hostOps := rfl
@[simp] theorem complete_hostReads (s : State) : (complete s).hostReads = s.hostReads := rfl
@[simp] theorem complete_turns (s : State) : (complete s).turns = s.turns := rfl

/-! The fields after `raiseCmdError`. -/

@[simp] theorem raiseCmdError_cmd (code : ErrCode) (s : State) : (raiseCmdError code s).cmd = s.cmd := rfl
@[simp] theorem raiseCmdError_status (code : ErrCode) (s : State) : (raiseCmdError code s).status = failedStatus code s.status := rfl
@[simp] theorem raiseCmdError_ctrl (code : ErrCode) (s : State) : (raiseCmdError code s).ctrl = s.ctrl := rfl
@[simp] theorem raiseCmdError_result (code : ErrCode) (s : State) : (raiseCmdError code s).result = s.result := rfl
@[simp] theorem raiseCmdError_state (code : ErrCode) (s : State) : (raiseCmdError code s).state = s.state := rfl
@[simp] theorem raiseCmdError_key (code : ErrCode) (s : State) : (raiseCmdError code s).key = s.key := rfl
@[simp] theorem raiseCmdError_w (code : ErrCode) (s : State) : (raiseCmdError code s).w = s.w := rfl
@[simp] theorem raiseCmdError_trace (code : ErrCode) (s : State) : (raiseCmdError code s).trace = s.trace := rfl
@[simp] theorem raiseCmdError_rst (code : ErrCode) (s : State) : (raiseCmdError code s).rst = s.rst := rfl
@[simp] theorem raiseCmdError_sboxTable (code : ErrCode) (s : State) : (raiseCmdError code s).sboxTable = s.sboxTable := rfl
@[simp] theorem raiseCmdError_draws (code : ErrCode) (s : State) : (raiseCmdError code s).draws = s.draws := rfl
@[simp] theorem raiseCmdError_hostOps (code : ErrCode) (s : State) : (raiseCmdError code s).hostOps = s.hostOps := rfl
@[simp] theorem raiseCmdError_hostReads (code : ErrCode) (s : State) : (raiseCmdError code s).hostReads = s.hostReads := rfl
@[simp] theorem raiseCmdError_turns (code : ErrCode) (s : State) : (raiseCmdError code s).turns = s.turns := rfl

/-! The fields after `writeStatus`. -/

@[simp] theorem writeStatus_cmd (v : Word) (s : State) : (writeStatus v s).cmd = s.cmd := rfl
@[simp] theorem writeStatus_status (v : Word) (s : State) : (writeStatus v s).status = clearStatusBits v s.status := rfl
@[simp] theorem writeStatus_ctrl (v : Word) (s : State) : (writeStatus v s).ctrl = s.ctrl := rfl
@[simp] theorem writeStatus_result (v : Word) (s : State) : (writeStatus v s).result = s.result := rfl
@[simp] theorem writeStatus_state (v : Word) (s : State) : (writeStatus v s).state = s.state := rfl
@[simp] theorem writeStatus_key (v : Word) (s : State) : (writeStatus v s).key = s.key := rfl
@[simp] theorem writeStatus_w (v : Word) (s : State) : (writeStatus v s).w = s.w := rfl
@[simp] theorem writeStatus_trace (v : Word) (s : State) : (writeStatus v s).trace = s.trace := rfl
@[simp] theorem writeStatus_rst (v : Word) (s : State) : (writeStatus v s).rst = s.rst := rfl
@[simp] theorem writeStatus_sboxTable (v : Word) (s : State) : (writeStatus v s).sboxTable = s.sboxTable := rfl
@[simp] theorem writeStatus_draws (v : Word) (s : State) : (writeStatus v s).draws = s.draws := rfl
@[simp] theorem writeStatus_hostOps (v : Word) (s : State) : (writeStatus v s).hostOps = s.hostOps := rfl
@[simp] theorem writeStatus_hostReads (v : Word) (s : State) : (writeStatus v s).hostReads = s.hostReads := rfl
@[simp] theorem writeStatus_turns (v : Word) (s : State) : (writeStatus v s).turns = s.turns := rfl

/-! The fields after `discardWrite`. -/

@[simp] theorem discardWrite_cmd (s : State) : (discardWrite s).cmd = s.cmd := rfl
@[simp] theorem discardWrite_status (s : State) : (discardWrite s).status = { s.status with ovr := true } := rfl
@[simp] theorem discardWrite_ctrl (s : State) : (discardWrite s).ctrl = s.ctrl := rfl
@[simp] theorem discardWrite_result (s : State) : (discardWrite s).result = s.result := rfl
@[simp] theorem discardWrite_state (s : State) : (discardWrite s).state = s.state := rfl
@[simp] theorem discardWrite_key (s : State) : (discardWrite s).key = s.key := rfl
@[simp] theorem discardWrite_w (s : State) : (discardWrite s).w = s.w := rfl
@[simp] theorem discardWrite_trace (s : State) : (discardWrite s).trace = s.trace := rfl
@[simp] theorem discardWrite_rst (s : State) : (discardWrite s).rst = s.rst := rfl
@[simp] theorem discardWrite_sboxTable (s : State) : (discardWrite s).sboxTable = s.sboxTable := rfl
@[simp] theorem discardWrite_draws (s : State) : (discardWrite s).draws = s.draws := rfl
@[simp] theorem discardWrite_hostOps (s : State) : (discardWrite s).hostOps = s.hostOps := rfl
@[simp] theorem discardWrite_hostReads (s : State) : (discardWrite s).hostReads = s.hostReads := rfl
@[simp] theorem discardWrite_turns (s : State) : (discardWrite s).turns = s.turns := rfl

/-! The fields after `setState`. -/

@[simp] theorem setState_cmd (b : Block) (s : State) : (setState b s).cmd = s.cmd := rfl
@[simp] theorem setState_status (b : Block) (s : State) : (setState b s).status = s.status := rfl
@[simp] theorem setState_ctrl (b : Block) (s : State) : (setState b s).ctrl = s.ctrl := rfl
@[simp] theorem setState_result (b : Block) (s : State) : (setState b s).result = s.result := rfl
@[simp] theorem setState_state (b : Block) (s : State) : (setState b s).state = b := rfl
@[simp] theorem setState_key (b : Block) (s : State) : (setState b s).key = s.key := rfl
@[simp] theorem setState_w (b : Block) (s : State) : (setState b s).w = s.w := rfl
@[simp] theorem setState_trace (b : Block) (s : State) : (setState b s).trace = s.trace := rfl
@[simp] theorem setState_rst (b : Block) (s : State) : (setState b s).rst = s.rst := rfl
@[simp] theorem setState_sboxTable (b : Block) (s : State) : (setState b s).sboxTable = s.sboxTable := rfl
@[simp] theorem setState_draws (b : Block) (s : State) : (setState b s).draws = s.draws := rfl
@[simp] theorem setState_hostOps (b : Block) (s : State) : (setState b s).hostOps = s.hostOps := rfl
@[simp] theorem setState_hostReads (b : Block) (s : State) : (setState b s).hostReads = s.hostReads := rfl
@[simp] theorem setState_turns (b : Block) (s : State) : (setState b s).turns = s.turns := rfl

/-! The fields after `setResult`. -/

@[simp] theorem setResult_cmd (b : Byte) (s : State) : (setResult b s).cmd = s.cmd := rfl
@[simp] theorem setResult_status (b : Byte) (s : State) : (setResult b s).status = s.status := rfl
@[simp] theorem setResult_ctrl (b : Byte) (s : State) : (setResult b s).ctrl = s.ctrl := rfl
@[simp] theorem setResult_result (b : Byte) (s : State) : (setResult b s).result = b := rfl
@[simp] theorem setResult_state (b : Byte) (s : State) : (setResult b s).state = s.state := rfl
@[simp] theorem setResult_key (b : Byte) (s : State) : (setResult b s).key = s.key := rfl
@[simp] theorem setResult_w (b : Byte) (s : State) : (setResult b s).w = s.w := rfl
@[simp] theorem setResult_trace (b : Byte) (s : State) : (setResult b s).trace = s.trace := rfl
@[simp] theorem setResult_rst (b : Byte) (s : State) : (setResult b s).rst = s.rst := rfl
@[simp] theorem setResult_sboxTable (b : Byte) (s : State) : (setResult b s).sboxTable = s.sboxTable := rfl
@[simp] theorem setResult_draws (b : Byte) (s : State) : (setResult b s).draws = s.draws := rfl
@[simp] theorem setResult_hostOps (b : Byte) (s : State) : (setResult b s).hostOps = s.hostOps := rfl
@[simp] theorem setResult_hostReads (b : Byte) (s : State) : (setResult b s).hostReads = s.hostReads := rfl
@[simp] theorem setResult_turns (b : Byte) (s : State) : (setResult b s).turns = s.turns := rfl

/-! The fields after `setRoundKeys`. -/

@[simp] theorem setRoundKeys_cmd (w : ExpandedKey) (s : State) : (setRoundKeys w s).cmd = s.cmd := rfl
@[simp] theorem setRoundKeys_status (w : ExpandedKey) (s : State) : (setRoundKeys w s).status = { s.status with rkvalid := true } := rfl
@[simp] theorem setRoundKeys_ctrl (w : ExpandedKey) (s : State) : (setRoundKeys w s).ctrl = s.ctrl := rfl
@[simp] theorem setRoundKeys_result (w : ExpandedKey) (s : State) : (setRoundKeys w s).result = s.result := rfl
@[simp] theorem setRoundKeys_state (w : ExpandedKey) (s : State) : (setRoundKeys w s).state = s.state := rfl
@[simp] theorem setRoundKeys_key (w : ExpandedKey) (s : State) : (setRoundKeys w s).key = s.key := rfl
@[simp] theorem setRoundKeys_w (w : ExpandedKey) (s : State) : (setRoundKeys w s).w = w := rfl
@[simp] theorem setRoundKeys_trace (w : ExpandedKey) (s : State) : (setRoundKeys w s).trace = s.trace := rfl
@[simp] theorem setRoundKeys_rst (w : ExpandedKey) (s : State) : (setRoundKeys w s).rst = s.rst := rfl
@[simp] theorem setRoundKeys_sboxTable (w : ExpandedKey) (s : State) : (setRoundKeys w s).sboxTable = s.sboxTable := rfl
@[simp] theorem setRoundKeys_draws (w : ExpandedKey) (s : State) : (setRoundKeys w s).draws = s.draws := rfl
@[simp] theorem setRoundKeys_hostOps (w : ExpandedKey) (s : State) : (setRoundKeys w s).hostOps = s.hostOps := rfl
@[simp] theorem setRoundKeys_hostReads (w : ExpandedKey) (s : State) : (setRoundKeys w s).hostReads = s.hostReads := rfl
@[simp] theorem setRoundKeys_turns (w : ExpandedKey) (s : State) : (setRoundKeys w s).turns = s.turns := rfl

/-! The fields after `setTrace`. -/

@[simp] theorem setTrace_cmd (t : Vector TraceEntry 60) (d : Direction) (s : State) : (setTrace t d s).cmd = s.cmd := rfl
@[simp] theorem setTrace_status (t : Vector TraceEntry 60) (d : Direction) (s : State) : (setTrace t d s).status = { s.status with tcount := 60, tdir := d } := rfl
@[simp] theorem setTrace_ctrl (t : Vector TraceEntry 60) (d : Direction) (s : State) : (setTrace t d s).ctrl = s.ctrl := rfl
@[simp] theorem setTrace_result (t : Vector TraceEntry 60) (d : Direction) (s : State) : (setTrace t d s).result = s.result := rfl
@[simp] theorem setTrace_state (t : Vector TraceEntry 60) (d : Direction) (s : State) : (setTrace t d s).state = s.state := rfl
@[simp] theorem setTrace_key (t : Vector TraceEntry 60) (d : Direction) (s : State) : (setTrace t d s).key = s.key := rfl
@[simp] theorem setTrace_w (t : Vector TraceEntry 60) (d : Direction) (s : State) : (setTrace t d s).w = s.w := rfl
@[simp] theorem setTrace_trace (t : Vector TraceEntry 60) (d : Direction) (s : State) : (setTrace t d s).trace = t := rfl
@[simp] theorem setTrace_rst (t : Vector TraceEntry 60) (d : Direction) (s : State) : (setTrace t d s).rst = s.rst := rfl
@[simp] theorem setTrace_sboxTable (t : Vector TraceEntry 60) (d : Direction) (s : State) : (setTrace t d s).sboxTable = s.sboxTable := rfl
@[simp] theorem setTrace_draws (t : Vector TraceEntry 60) (d : Direction) (s : State) : (setTrace t d s).draws = s.draws := rfl
@[simp] theorem setTrace_hostOps (t : Vector TraceEntry 60) (d : Direction) (s : State) : (setTrace t d s).hostOps = s.hostOps := rfl
@[simp] theorem setTrace_hostReads (t : Vector TraceEntry 60) (d : Direction) (s : State) : (setTrace t d s).hostReads = s.hostReads := rfl
@[simp] theorem setTrace_turns (t : Vector TraceEntry 60) (d : Direction) (s : State) : (setTrace t d s).turns = s.turns := rfl

/-! The fields after `resetEngine`. -/

@[simp] theorem resetEngine_cmd (s : State) : (resetEngine s).cmd = State.reset.cmd := rfl
@[simp] theorem resetEngine_status (s : State) : (resetEngine s).status = State.reset.status := rfl
@[simp] theorem resetEngine_ctrl (s : State) : (resetEngine s).ctrl = State.reset.ctrl := rfl
@[simp] theorem resetEngine_result (s : State) : (resetEngine s).result = State.reset.result := rfl
@[simp] theorem resetEngine_state (s : State) : (resetEngine s).state = State.reset.state := rfl
@[simp] theorem resetEngine_key (s : State) : (resetEngine s).key = State.reset.key := rfl
@[simp] theorem resetEngine_w (s : State) : (resetEngine s).w = State.reset.w := rfl
@[simp] theorem resetEngine_trace (s : State) : (resetEngine s).trace = State.reset.trace := rfl
@[simp] theorem resetEngine_rst (s : State) : (resetEngine s).rst = s.rst := rfl
@[simp] theorem resetEngine_sboxTable (s : State) : (resetEngine s).sboxTable = s.sboxTable := rfl
@[simp] theorem resetEngine_draws (s : State) : (resetEngine s).draws = s.draws := rfl
@[simp] theorem resetEngine_hostOps (s : State) : (resetEngine s).hostOps = s.hostOps := rfl
@[simp] theorem resetEngine_hostReads (s : State) : (resetEngine s).hostReads = s.hostReads := rfl
@[simp] theorem resetEngine_turns (s : State) : (resetEngine s).turns = s.turns := rfl

/-! The flags after a completion and after an error entry. -/

@[simp] theorem completedStatus_busy (st : Status) : (completedStatus st).busy = false := rfl
@[simp] theorem completedStatus_done (st : Status) : (completedStatus st).done = true := rfl
@[simp] theorem completedStatus_err (st : Status) : (completedStatus st).err = st.err := rfl
@[simp] theorem completedStatus_ovr (st : Status) : (completedStatus st).ovr = st.ovr := rfl
@[simp] theorem completedStatus_rkvalid (st : Status) : (completedStatus st).rkvalid = st.rkvalid := rfl
@[simp] theorem completedStatus_tdir (st : Status) : (completedStatus st).tdir = st.tdir := rfl
@[simp] theorem completedStatus_errcode (st : Status) : (completedStatus st).errcode = st.errcode := rfl
@[simp] theorem completedStatus_tcount (st : Status) : (completedStatus st).tcount = st.tcount := rfl
@[simp] theorem failedStatus_busy (code : ErrCode) (st : Status) : (failedStatus code st).busy = false := rfl
@[simp] theorem failedStatus_done (code : ErrCode) (st : Status) : (failedStatus code st).done = true := rfl
@[simp] theorem failedStatus_err (code : ErrCode) (st : Status) : (failedStatus code st).err = true := rfl
@[simp] theorem failedStatus_ovr (code : ErrCode) (st : Status) : (failedStatus code st).ovr = st.ovr := rfl
@[simp] theorem failedStatus_rkvalid (code : ErrCode) (st : Status) : (failedStatus code st).rkvalid = st.rkvalid := rfl
@[simp] theorem failedStatus_tdir (code : ErrCode) (st : Status) : (failedStatus code st).tdir = st.tdir := rfl
@[simp] theorem failedStatus_errcode (code : ErrCode) (st : Status) : (failedStatus code st).errcode = if st.err then st.errcode else code := rfl
@[simp] theorem failedStatus_tcount (code : ErrCode) (st : Status) : (failedStatus code st).tcount = st.tcount := rfl

end Sys2Proof.Machine
end

