-- ==== Sys2Proof/Laws/Window.lean ====
section
/-! SUPPORT. What each offset of the window names, and what a read can do to the state. -/

namespace Sys2Proof.Machine

@[simp] theorem regAt_cmd : regAt 0x000 = .cmd := rfl
@[simp] theorem regAt_status : regAt 0x004 = .status := rfl
@[simp] theorem regAt_ctrl : regAt 0x008 = .ctrl := rfl
@[simp] theorem regAt_result : regAt 0x00C = .result := rfl

/-- CTRL is at no other offset. -/
theorem regAt_eq_ctrl {off : Nat} : regAt off = .ctrl ↔ off = 0x008 := by
  refine ⟨fun h => ?_, fun h => by rw [h]; rfl⟩
  unfold regAt at h
  repeat' split at h
  all_goals first | assumption | cases h

theorem regAt_state (c : Fin 4) : regAt (0x010 + 4 * c.val) = .state c := by revert c; decide

theorem regAt_key (k : Fin 8) : regAt (0x020 + 4 * k.val) = .key k := by revert k; decide

theorem regAt_w (i : Fin 60) : regAt (0x100 + 4 * i.val) = .w i := by revert i; decide

/-- The words of a trace entry, at the offsets o of its 64 bytes. -/
theorem regAt_trace (n : Fin 60) (o : Nat) (h : o < 64) :
    regAt (0x1000 + 64 * n.val + o) = .trace n ⟨o / 4, by omega⟩ := by
  have hn := n.isLt
  simp only [regAt]
  rw [if_neg (by omega), if_neg (by omega), if_neg (by omega), if_neg (by omega), dif_neg (by omega), dif_neg (by omega),
    dif_neg (by omega), dif_pos (by omega)]
  exact congrArg₂ WindowReg.trace (Fin.ext (by show (4096 + 64 * n.val + o - 4096) / 64 = n.val; omega))
    (Fin.ext (by show (4096 + 64 * n.val + o - 4096) % 64 / 4 = o / 4; omega))

/-- The reserved offsets of rule R63 outside the trace entries. -/
theorem regAt_reserved {off : Nat} (h : (0x040 ≤ off ∧ off < 0x100) ∨ (0x1F0 ≤ off ∧ off < 0x1000) ∨ 0x1F00 ≤ off) :
    regAt off = .reserved := by
  simp only [regAt]
  rw [if_neg (by omega), if_neg (by omega), if_neg (by omega), if_neg (by omega), dif_neg (by omega), dif_neg (by omega),
    dif_neg (by omega), dif_neg (by omega)]

/-- A read of a place with no draw, or with BUSY = 0, returns what the registers hold and changes nothing. -/
theorem memRead_held {r : WindowReg} {s : State} (h : s.status.busy = false ∨ drawMask r = 0) :
    memRead r s = (heldWord s r, s) := by
  unfold memRead
  rw [if_neg]
  rcases h with h | h <;> simp [h]

/-- A reserved word of a trace entry holds 0 and is never a draw. -/
theorem memRead_trace_reserved {o : Fin 16} (n : Fin 60) (s : State) (h : traceWordUsed o = false) :
    memRead (.trace n o) s = (0, s) := by
  rw [memRead_held (.inr (by simp [drawMask, h]))]
  simp only [traceWordUsed, decide_eq_false_iff_not, not_or] at h
  have hw : traceWord s.trace[n] o = 0 := by
    unfold traceWord
    rw [if_neg h.1, dif_neg (by omega), dif_neg (by omega)]
  simp only [heldWord, hw, ite_self]

/-- A read of a place with draws while BUSY = 1. -/
theorem memRead_draw {r : WindowReg} {s : State} (hb : s.status.busy = true) (hm : drawMask r ≠ 0) :
    memRead r s =
      ((heldWord s r &&& ~~~(drawMask r)) ||| (Config.draw s.draws &&& drawMask r), { s with draws := s.draws + 1 }) := by
  unfold memRead
  rw [if_pos]
  simpa [hb] using hm

/-- A read changes nothing but the count of draws. -/
theorem memRead_state (r : WindowReg) (s : State) : (memRead r s).2 = { s with draws := (memRead r s).2.draws } := by
  unfold memRead
  split <;> rfl

/-- What the registers hold does not depend on the count of draws. -/
theorem heldWord_draws (s : State) (n : Nat) (r : WindowReg) : heldWord { s with draws := n } r = heldWord s r := by
  cases r <;> rfl

end Sys2Proof.Machine
end

