-- ==== Sys2Proof/Laws/Step.lean ====
section
/-! SUPPORT. What each meaning answers, and what a step can do. -/

namespace Sys2Proof.Machine

/-! One lemma for each meaning. -/

variable (s : State)

theorem exec_nop : exec .nop s = .next (complete s) := rfl
theorem exec_sbox (a : Byte) : exec (.sbox a) s = .next (complete (setResult (sboxAt s.sboxTable a) s)) := rfl
theorem exec_isbox (a : Byte) : exec (.isbox a) s = .next (complete (setResult (invSboxAt s.sboxTable a) s)) := rfl
theorem exec_gfmul (a b : Byte) : exec (.gfmul a b) s = .next (complete (setResult (gfMul a b) s)) := rfl
theorem exec_bsf : exec .bsf s = .next (complete (setState (bitshiftForward s.state) s)) := rfl
theorem exec_bsi : exec .bsi s = .next (complete (setState (bitshiftInverse s.state) s)) := rfl
theorem exec_trn : exec .trn s = .next (complete (setState (transpose s.state) s)) := rfl
theorem exec_kexp : exec .kexp s = .next (complete (setRoundKeys (keySchedule s.sboxTable s.key) s)) := rfl
theorem exec_subb : exec .subb s = .next (complete (setState (subBytes s.sboxTable s.state) s)) := rfl
theorem exec_isubb : exec .isubb s = .next (complete (setState (invSubBytes s.sboxTable s.state) s)) := rfl
theorem exec_shrows : exec .shrows s = .next (complete (setState (shiftRows s.state) s)) := rfl
theorem exec_ishrows : exec .ishrows s = .next (complete (setState (invShiftRows s.state) s)) := rfl
theorem exec_mixcol : exec .mixcol s = .next (complete (setState (mixColumns s.state) s)) := rfl
theorem exec_imixcol : exec .imixcol s = .next (complete (setState (invMixColumns s.state) s)) := rfl

theorem exec_ark_ok {r : Nat} (h : r < 15) (hk : s.status.rkvalid = true) :
    exec (.ark r) s = .next (complete (setState (addRoundKey s.state (roundKey s.w ⟨r, h⟩)) s)) := by
  simp [exec, execArk, h, hk]

theorem exec_ark_noKey {r : Nat} (h : r < 15) (hk : s.status.rkvalid = false) :
    exec (.ark r) s = .next (raiseCmdError .noKey s) := by
  simp [exec, execArk, h, hk]

theorem exec_ark_roundRange {r : Nat} (h : 15 ≤ r) : exec (.ark r) s = .next (raiseCmdError .roundRange s) := by
  simp [exec, execArk, show ¬ r < 15 by omega]

/-- The state ENC and DEC end in. -/
def pipelineResult (d : Direction) (s : State) : State :=
  complete (setTrace (pipelineOf d s.sboxTable s.state s.key).trace d
    (setRoundKeys (keySchedule s.sboxTable s.key) (setState (pipelineOf d s.sboxTable s.state s.key).s s)))

/-- The same, field by field. -/
theorem pipelineResult_eq (d : Direction) :
    pipelineResult d s =
      { s with
        state := (pipelineOf d s.sboxTable s.state s.key).s
        w := keySchedule s.sboxTable s.key
        trace := (pipelineOf d s.sboxTable s.state s.key).trace
        status := { completedStatus s.status with rkvalid := true, tdir := d, tcount := 60 } } := by
  unfold pipelineResult
  generalize pipelineOf d s.sboxTable s.state s.key = p
  generalize keySchedule s.sboxTable s.key = w
  rfl

theorem exec_enc : exec .enc s = .next (pipelineResult .enc s) := rfl
theorem exec_dec : exec .dec s = .next (pipelineResult .dec s) := rfl

variable {s}

/-- All that a command can do: an error of ARK, or a completion after writes of RESULT, STATE, W with RKVALID, and TRACE. -/
theorem exec_cases (i : Instr) (s : State) :
    (∃ r code, (code = .noKey ∨ code = .roundRange) ∧ i = .ark r ∧ exec i s = .next (raiseCmdError code s)) ∨
    exec i s = .next (complete s) ∨
    (∃ b, writesPlace i .result = true ∧ exec i s = .next (complete (setResult b s))) ∨
    (∃ b, (∀ c, writesPlace i (.state c) = true) ∧ exec i s = .next (complete (setState b s))) ∨
    (i = .kexp ∧ exec i s = .next (complete (setRoundKeys (keySchedule s.sboxTable s.key) s))) ∨
    (∃ d, (i = .enc ∨ i = .dec) ∧ exec i s = .next (pipelineResult d s)) := by
  cases i with
  | nop => exact .inr (.inl rfl)
  | sbox a => exact .inr (.inr (.inl ⟨_, rfl, rfl⟩))
  | isbox a => exact .inr (.inr (.inl ⟨_, rfl, rfl⟩))
  | gfmul a b => exact .inr (.inr (.inl ⟨_, rfl, rfl⟩))
  | ark r =>
    by_cases h : r < 15
    · cases hk : s.status.rkvalid with
      | true => exact .inr (.inr (.inr (.inl ⟨_, fun _ => rfl, exec_ark_ok s h hk⟩)))
      | false => exact .inl ⟨r, _, .inl rfl, rfl, exec_ark_noKey s h hk⟩
    · exact .inl ⟨r, _, .inr rfl, rfl, exec_ark_roundRange s (by omega)⟩
  | kexp => exact .inr (.inr (.inr (.inr (.inl ⟨rfl, rfl⟩))))
  | enc => exact .inr (.inr (.inr (.inr (.inr ⟨.enc, .inl rfl, rfl⟩))))
  | dec => exact .inr (.inr (.inr (.inr (.inr ⟨.dec, .inr rfl, rfl⟩))))
  | bsf | bsi | trn | subb | isubb | shrows | ishrows | mixcol | imixcol =>
    exact .inr (.inr (.inr (.inl ⟨_, fun _ => rfl, rfl⟩)))

/-! The turns. -/

/-- With a command in flight and the Engine to move, a step is the Engine step. -/
theorem step_of_engineIsNext {u : State} (h : EngineIsNext s u) : step s = engineStep u := by
  obtain ⟨hb, ht, hbusy, rfl⟩ := h
  obtain ⟨ts, ht⟩ | ht := ht
  · simp [step, runTurn, hb, ht, engineTurn, hbusy]
  · have hu : ({ s with turns := s.turns.tail } : State) = s := by cases s; simp_all
    rw [hu]
    simp [step, runTurn, hb, ht, engineTurn, hbusy]

/-- With the Host to move, a step is its oldest access. -/
theorem step_of_hostIsNext {op : HostOp} {u : State} (h : HostIsNext op s u) : step s = hostAccess op u := by
  obtain ⟨hb, ht, ⟨rest, hr⟩, rfl⟩ := h
  obtain ⟨ts, ht⟩ | ⟨ht, hbusy⟩ := ht
  · simp [step, runTurn, hb, ht, hostTurn, hr]
  · simp [step, runTurn, hb, ht, hostTurn, hr, hbusy]

/-- The Engine step on a word that decodes. -/
theorem engineStep_ok {i : Instr} (h : decode s.cmd = .ok i) : engineStep s = exec i s := by
  simp only [engineStep, h]

/-- The Engine step on a word that does not. -/
theorem engineStep_error {e : Illegal} (h : decode s.cmd = .error e) :
    engineStep s = .next (raiseCmdError .illegalCmd s) := by
  simp only [engineStep, h]

/-- The Engine step always answers a next state, with BUSY = 0 and DONE = 1. -/
theorem engineStep_completes (s : State) : ∃ t, engineStep s = .next t ∧ t.status.busy = false ∧ t.status.done = true := by
  unfold engineStep
  split
  next i _ =>
    rcases exec_cases i s with ⟨_, _, _, _, h⟩ | h | ⟨_, _, h⟩ | ⟨_, _, h⟩ | ⟨_, h⟩ | ⟨_, _, h⟩ <;> exact ⟨_, h, rfl, rfl⟩
  · exact ⟨_, rfl, rfl, rfl⟩

/-- A run of one step more, past a step that answers a next state. -/
theorem run_succ {t : State} (n : Nat) (h : step s = .next t) :
    Sys2Proof.core.run (n + 1) s = Sys2Proof.core.run n t := by
  simp only [Host.Core.run, Sys2Proof.core, h]

/-- With the Host to move and RST released, an aligned write inside the window is `memWrite`. -/
theorem step_of_write {u : State} {off : Nat} {v : Word} (h : HostIsNext (.wr off 4 v) s u) (hr : s.rst = false)
    (ho : off < windowSize) (ha : off % 4 = 0) : step s = .next (memWrite (regAt off) v u) := by
  have hu : u.rst = false := by rw [h.2.2.2]; exact hr
  simp [step_of_hostIsNext h, hostAccess, accessDefined, hu, ha, show ¬ windowSize ≤ off by omega]

/-- With the Host to move and RST released, an aligned read inside the window is `memRead`, its value added to the values
read. -/
theorem step_of_read {u : State} {off : Nat} (h : HostIsNext (.rd off 4) s u) (hr : s.rst = false)
    (ho : off < windowSize) (ha : off % 4 = 0) :
    step s = .next { (memRead (regAt off) u).2 with
      hostReads := (memRead (regAt off) u).2.hostReads ++ [(memRead (regAt off) u).1] } := by
  have hu : u.rst = false := by rw [h.2.2.2]; exact hr
  simp [step_of_hostIsNext h, hostAccess, accessDefined, hu, ha, show ¬ windowSize ≤ off by omega]

/-- All that a step can do: with an accepted configuration, one agent's turn or a change of the RST input. -/
theorem step_cases {t : State} (h : step s = .next t) :
    sboxBijective s.sboxTable = true ∧
    ((∃ u, (u = { s with turns := s.turns.tail } ∨ u = s) ∧ (engineTurn u = .next t ∨ hostTurn u = .next t)) ∨
      ∃ level, rstTurn level { s with turns := s.turns.tail } = .next t) := by
  unfold step runTurn at h
  split at h
  next hb =>
    refine ⟨hb, ?_⟩
    split at h
    next ht =>
      split at h
      · exact .inl ⟨s, .inr rfl, .inl h⟩
      · exact .inl ⟨s, .inr rfl, .inr h⟩
    next ts ht => exact .inl ⟨_, .inl rfl, .inl (by rw [ht]; exact h)⟩
    next ts ht => exact .inl ⟨_, .inl rfl, .inr (by rw [ht]; exact h)⟩
    next level ts ht => exact .inr ⟨level, by rw [ht]; exact h⟩
  next => cases h

/-- All that the Engine's turn can do: nothing while BUSY = 0, else the error entry or a command. -/
theorem engineTurn_cases {t : State} (h : engineTurn s = .next t) :
    (s.status.busy = false ∧ t = s) ∨
    (s.status.busy = true ∧ t = raiseCmdError .illegalCmd s) ∨
    (s.status.busy = true ∧ ∃ i, decode s.cmd = .ok i ∧ exec i s = .next t) := by
  unfold engineTurn engineStep at h
  split at h
  next hb =>
    split at h
    next i hi => exact .inr (.inr ⟨hb, i, hi, h⟩)
    next e he => exact .inr (.inl ⟨hb, by cases h; rfl⟩)
  next hb => exact .inl ⟨by simpa using hb, by cases h; rfl⟩

/-- All that an access which answers a next state can do: a read, a write, or a poll, and RST is then released. -/
theorem hostAccess_cases {op : HostOp} {t : State} (h : hostAccess op s = .next t) :
    s.rst = false ∧
    ((∃ off, op = .rd off 4 ∧ off < windowSize ∧ off % 4 = 0 ∧
        t = { (memRead (regAt off) s).2 with
          hostReads := (memRead (regAt off) s).2.hostReads ++ [(memRead (regAt off) s).1] }) ∨
      (∃ off v, op = .wr off 4 v ∧ off < windowSize ∧ off % 4 = 0 ∧ t = memWrite (regAt off) v s) ∨
      (op = .wait ∧ ∃ ops, (ops = s.hostOps ∨ ops = .wait :: s.hostOps) ∧ t = { (memRead .status s).2 with hostOps := ops })) := by
  unfold hostAccess at h
  split at h
  next off n =>
    split at h
    · cases h
    · split at h
      · cases h
      next hb =>
        cases h
        simp only [accessDefined, Bool.or_eq_true, Bool.not_eq_true', not_or, Bool.not_eq_true, Bool.not_eq_false,
          Bool.and_eq_true, beq_iff_eq] at hb
        obtain ⟨hr, rfl, ha⟩ := hb
        exact ⟨hr, .inl ⟨off, rfl, by omega, ha, rfl⟩⟩
  next off n v =>
    split at h
    · cases h
    · split at h
      · cases h
      next hb =>
        cases h
        simp only [accessDefined, Bool.or_eq_true, Bool.not_eq_true', not_or, Bool.not_eq_true, Bool.not_eq_false,
          Bool.and_eq_true, beq_iff_eq] at hb
        obtain ⟨hr, rfl, ha⟩ := hb
        exact ⟨hr, .inr (.inl ⟨off, v, rfl, by omega, ha, rfl⟩)⟩
  next =>
    split at h
    · cases h
    next hb =>
      refine ⟨by simpa using hb, .inr (.inr ⟨rfl, ?_⟩)⟩
      have hops : (memRead .status s).2.hostOps = s.hostOps := by rw [memRead_state]
      simp only [Host.Outcome.next.injEq] at h
      subst h
      split
      · exact ⟨_, .inr rfl, by rw [hops]⟩
      · exact ⟨_, .inl rfl, by rw [← hops]⟩

/-- All that a write can do; a reset and new enables come of CTRL alone, by bit 31. -/
theorem memWrite_cases (r : WindowReg) (v : Word) (s : State) :
    memWrite r v s = s ∨ memWrite r v s = discardWrite s ∨ memWrite r v s = writeStatus v s ∨
    (r = .ctrl ∧ v.getLsbD 31 = true ∧ memWrite r v s = resetEngine s) ∨
    (r = .ctrl ∧ v.getLsbD 31 = false ∧ memWrite r v s = { s with ctrl := ctrlOfWord v }) ∨
    (s.status.busy = false ∧
      (memWrite r v s = acceptCommand v s ∨ (∃ b, memWrite r v s = { s with state := b }) ∨
        ∃ k, memWrite r v s = { s with key := k, status := { s.status with rkvalid := false } })) := by
  cases r with
  | cmd => cases hb : s.status.busy <;> simp [memWrite, hb]
  | status => simp [memWrite]
  | ctrl =>
    by_cases hv : v.getLsbD 31 = true
    · exact .inr (.inr (.inr (.inl ⟨rfl, hv, if_pos hv⟩)))
    · exact .inr (.inr (.inr (.inr (.inl ⟨rfl, by simpa using hv, if_neg hv⟩))))
  | state c =>
    cases hb : s.status.busy with
    | true => simp [memWrite, hb]
    | false => exact .inr (.inr (.inr (.inr (.inr ⟨rfl, .inr (.inl ⟨setColumn s.state c v, by simp [memWrite, hb]⟩)⟩))))
  | key k =>
    cases hb : s.status.busy with
    | true => simp [memWrite, hb]
    | false => exact .inr (.inr (.inr (.inr (.inr ⟨rfl, .inr (.inr ⟨setKeyWord s.key k v, by simp [memWrite, hb]⟩)⟩))))
  | result | w i | trace n o | reserved => exact .inl rfl

end Sys2Proof.Machine
end

