-- ==== Sys2Proof/Tests/Slice0.lean ====
section
/-! SUPPORT. Tests, whose expected values are the spec's own (95_test_vectors.md and the rules' examples), and the witnesses of
the statements' hypotheses. -/

namespace Sys2Proof.Tests

/-! The kernel evaluates these theorems one after another, so that a check of the whole package stays within its memory. -/
set_option Elab.async false

open Sys2Proof Sys2Proof.Machine

/-! Well-formed commands. -/

/-- The one check: a round index beyond the field is refused. -/
theorem test_wellFormed_refuses_round_16 : (Instr.ark 16).wellFormed = false := by decide
/-- The greatest index the field holds is well formed, though no round key has it. -/
theorem test_wellFormed_takes_round_15 : (Instr.ark 15).wellFormed = true := by decide

/-! Decoding: each word is written out from rule R100's fields and rule R103's opcodes, most of them in V-C1, V-G1, V-S1 and V-D1. -/

theorem test_decode_queries :
    decode 0x00000000 = .ok .nop ∧ decode 0x00530001 = .ok (.sbox 0x53) ∧ decode 0x00ed0002 = .ok (.isbox 0xed) ∧
    decode 0x83570003 = .ok (.gfmul 0x57 0x83) := by decide
theorem test_decode_diffusion :
    decode 0x00000004 = .ok .bsf ∧ decode 0x00000005 = .ok .bsi ∧ decode 0x00000006 = .ok .trn := by decide
theorem test_decode_kexp : decode 0x00000007 = .ok .kexp := by decide
theorem test_decode_round_operations :
    decode 0x00000008 = .ok .subb ∧ decode 0x00000009 = .ok .isubb ∧ decode 0x0000000a = .ok .shrows ∧
    decode 0x0000000b = .ok .ishrows ∧ decode 0x0000000c = .ok .mixcol ∧ decode 0x0000000d = .ok .imixcol := by decide
theorem test_decode_ark : decode 0x0000020e = .ok (.ark 2) ∧ decode 0x00000f0e = .ok (.ark 15) := by decide
theorem test_decode_pipelines : decode 0x0000000f = .ok .enc ∧ decode 0x00000010 = .ok .dec := by decide
/-- The words of V-C1 that are not legal, by the condition of rule R104 that each breaks. -/
theorem test_decode_rejects_by_name :
    decode 0x00000011 = .error .reservedOpcode ∧ decode 0x000000ff = .error .reservedOpcode ∧
    decode 0xffffffff = .error .reservedOpcode ∧ decode 0x00001000 = .error .reservedField ∧
    decode 0x00001f0e = .error .reservedField ∧ decode 0x00000100 = .error .unusedField ∧
    decode 0x01530001 = .error .unusedField ∧ decode 0x00530101 = .error .unusedField ∧
    decode 0x83570103 = .error .unusedField ∧ decode 0x00010004 = .error .unusedField ∧
    decode 0x00010f0e = .error .unusedField ∧ decode 0x0100000e = .error .unusedField ∧
    decode 0x0000010f = .error .unusedField ∧ decode 0x80000010 = .error .unusedField := by decide
theorem test_decodeTableWord : decodeTableWord 32 0x0000020e = some (.ark 2) ∧ decodeTableWord 32 0x11 = none := by decide
theorem test_encode : encode (.gfmul 0x57 0x83) = 0x83570003 ∧ encode (.ark 15) = 0x00000f0e := by decide

/-! Small states. -/

/-- A 16-byte value written as 32 hex digits, byte 0 first (95_test_vectors.md's notation). -/
def blk (n : Nat) : Block := Vector.ofFn fun p => BitVec.ofNat 8 (n >>> (8 * (15 - p.val)))
/-- A 32-byte key written as 64 hex digits, byte 0 first. -/
def keyOf (n : Nat) : Key := Vector.ofFn fun j => BitVec.ofNat 8 (n >>> (8 * (31 - j.val)))
/-- The reset state with STATE = 00 01 02 ... 0f, where V-D1 starts. -/
def counting : State := { State.reset with state := blk 0x000102030405060708090a0b0c0d0e0f }
/-- What a test reads of a step: something of the next state, none at a stop. -/
def after {α : Type} (o : Host.Outcome State Fault Refusal) (f : State → α) : Option α :=
  match o with
  | .next t => some (f t)
  | .fault _ => none
  | .refused _ => none
/-- RESULT and the STATUS word. -/
def resultAndStatus (t : State) : Byte × Word := (t.result, statusWord t.status)
/-- One step after a command word has been placed in the reset state: the STATUS word. -/
def statusAfterWord (w : Nat) : Option Word := after (step (State.reset.withFetchWord 32 w)) fun t => statusWord t.status

/-! The commands that do not touch STATE: V-C1, V-S1 and V-G1. -/

theorem test_nop : statusAfterWord 0x00000000 = some 0x00000002 := by decide +kernel
theorem test_sbox : after (step (State.reset.withFetchWord 32 0x00530001)) resultAndStatus = some (0xed, 0x2) := by
  decide +kernel
theorem test_sbox_ends : sboxAt fipsSbox 0x00 = 0x63 ∧ sboxAt fipsSbox 0x52 = 0x00 ∧ sboxAt fipsSbox 0xff = 0x16 := by
  decide +kernel
theorem test_isbox : after (step (State.reset.withFetchWord 32 0x00ed0002)) resultAndStatus = some (0x53, 0x2) := by
  decide +kernel
/-- Rows 0, 5 and f of rule R122's table. -/
theorem test_invSbox_rows :
    (List.range 16).map (fun i => invSboxAt fipsSbox (BitVec.ofNat 8 i)) =
      [0x52, 0x09, 0x6a, 0xd5, 0x30, 0x36, 0xa5, 0x38, 0xbf, 0x40, 0xa3, 0x9e, 0x81, 0xf3, 0xd7, 0xfb] ∧
    (List.range 16).map (fun i => invSboxAt fipsSbox (BitVec.ofNat 8 (0x50 + i))) =
      [0x6c, 0x70, 0x48, 0x50, 0xfd, 0xed, 0xb9, 0xda, 0x5e, 0x15, 0x46, 0x57, 0xa7, 0x8d, 0x9d, 0x84] ∧
    (List.range 16).map (fun i => invSboxAt fipsSbox (BitVec.ofNat 8 (0xf0 + i))) =
      [0x17, 0x2b, 0x04, 0x7e, 0xba, 0x77, 0xd6, 0x26, 0xe1, 0x69, 0x14, 0x63, 0x55, 0x21, 0x0c, 0x7d] := by
  decide +kernel
theorem test_gfmul : after (step (State.reset.withFetchWord 32 0x83570003)) resultAndStatus = some (0xc1, 0x2) := by
  decide +kernel
theorem test_gfmul_table :
    gfMul 0x57 0x13 = 0xfe ∧ gfMul 0x57 0x02 = 0xae ∧ gfMul 0x80 0x02 = 0x1b ∧ gfMul 0xff 0xff = 0x13 ∧
    gfMul 0x53 0xca = 0x01 ∧ gfMul 0x0e 0xff = 0x8d ∧ gfMul 0x0d 0x80 = 0xda ∧ gfMul 0x09 0x9a = 0x26 := by decide +kernel

/-! The commands on STATE: V-D1 and V-M1. -/

theorem test_bsf : after (exec .bsf counting) State.state = some (blk 0x00800181028203830484058506860787) := by decide +kernel
theorem test_bsi : after (exec .bsi counting) State.state = some (blk 0x00020406080a0c0e10121416181a1c1e) := by decide +kernel
theorem test_trn : after (exec .trn counting) State.state = some (blk 0x0004080c0105090d02060a0e03070b0f) := by decide +kernel
theorem test_subb : after (exec .subb counting) State.state = some (blk 0x637c777bf26b6fc53001672bfed7ab76) := by decide +kernel
theorem test_isubb : after (exec .isubb counting) State.state = some (blk 0x52096ad53036a538bf40a39e81f3d7fb) := by
  decide +kernel
theorem test_shrows : after (exec .shrows counting) State.state = some (blk 0x00050a0f04090e03080d02070c01060b) := by
  decide +kernel
theorem test_ishrows : after (exec .ishrows counting) State.state = some (blk 0x000d0a0704010e0b0805020f0c090603) := by
  decide +kernel
theorem test_mixcol : after (exec .mixcol counting) State.state = some (blk 0x02070005060304010a0f080d0e0b0c09) := by
  decide +kernel
/-- Four of V-M1's columns. -/
theorem test_mixcol_columns :
    mixColumns (blk 0xdb135345f20a225cd4d4d4d52d26314c) = blk 0x8e4da1bc9fdc589dd5d5d7d64d7ebdf8 := by decide +kernel
theorem test_imixcol : after (exec .imixcol counting) State.state = some (blk 0x0a0f080d0e0b0c090207000506030401) := by
  decide +kernel
theorem test_imixcol_columns :
    invMixColumns (blk 0x8e4da1bc9fdc589dd5d5d7d64d7ebdf8) = blk 0xdb135345f20a225cd4d4d4d52d26314c := by decide +kernel

/-! KEXP and ARK: V-X2 and V-A1. -/

/-- V-X2's key, which is FIPS-197 A.3's. -/
def exampleKey : Key := keyOf 0x603deb1015ca71be2b73aef0857d77811f352c073b6108d72d9810a30914dff4
theorem test_kexp :
    after (exec .kexp { State.reset with key := exampleKey }) (fun t => (t.w[8], t.w[59], statusWord t.status)) =
      some (0x1154a39b, 0x1e636c70, 0x00000012) := by decide +kernel
/-- Round key 2 of the all-zero key, by V-K1's four words, under `ark 2`. -/
theorem test_ark :
    after (exec (.ark 2) { counting with
      w := (((State.reset.w.set 8 0x63636362).set 9 0x63636362).set 10 0x63636362).set 11 0x63636362
      status := { State.reset.status with rkvalid := true } }) State.state =
      some (blk 0x62626160666665646a6a69686e6e6d6c) := by decide +kernel
/-- ARK's errors in V-C1: NO_KEY and ROUND_RANGE. -/
theorem test_ark_errors : statusAfterWord 0x0000000e = some 0x00000306 ∧ statusAfterWord 0x00000f0e = some 0x00000206 := by
  decide +kernel

/-! ENC and DEC: V-E2 and V-E1. -/

theorem test_enc_from_reset :
    after (exec .enc State.reset) (fun t => (t.state, statusWord t.status)) =
      some (blk 0xdc95c078a2408989ad48a21492842087, 0x003c0012) := by decide +kernel
theorem test_dec :
    after (exec .dec { State.reset with state := blk 0x62dd4ea12e13536805b84ea8bcfec866 })
      (fun t => (t.state, statusWord t.status)) = some (blk 0x48454c4c4f20574f524c442121000000, 0x003c0032) := by decide +kernel

/-! Errors and the register window: V-C1 and V-C2. -/

theorem test_illegal_words :
    statusAfterWord 0x00000100 = some 0x00000106 ∧ statusAfterWord 0x00001f0e = some 0x00000106 ∧
    statusAfterWord 0x000000ff = some 0x00000106 := by decide +kernel
/-- A state in which the Host is to make one access. -/
def hostState (busy : Bool) (op : HostOp) : State :=
  { State.reset with hostOps := [op], turns := [.host], status := { State.reset.status with busy := busy } }
/-- The value of a read made from a state. -/
def valueRead (s : State) (off : Nat) : Option (List Word) :=
  after (step { s with hostOps := [hostRead off], turns := [.host] }) State.hostReads
theorem test_read_empty_trace : valueRead State.reset 0x1000 = some [0] := by decide +kernel
/-- Rule R63's reserved words of entry 0, at their ends, while BUSY = 1. -/
theorem test_read_reserved_trace_words_while_busy :
    valueRead (hostState true .wait) 0x1004 = some [0] ∧ valueRead (hostState true .wait) 0x103C = some [0] := by decide +kernel
theorem test_write_ctrl :
    after (step (hostState false (hostWrite 0x008 3))) (fun t => ctrlWord t.ctrl) = some 3 ∧
    after (step { hostState true (hostWrite 0x008 0x80000003) with ctrl := ctrlOfWord 3 }) (fun t => (ctrlWord t.ctrl, irq t)) =
      some (0, false) := by decide +kernel
theorem test_read_only_and_reserved_ignore_writes :
    after (step (hostState false (hostWrite 0x00C 0x12345678))) (fun t => (t.result, statusWord t.status)) = some (0, 0) ∧
    after (step (hostState false (hostWrite 0x040 0xffffffff))) (fun t => statusWord t.status) = some 0 := by decide +kernel
theorem test_key_write_clears_rkvalid :
    after (step { hostState false (hostWrite 0x024 0) with
      status := { State.reset.status with done := true, rkvalid := true } }) (fun t => statusWord t.status) =
      some 0x00000002 := by decide +kernel
theorem test_w1c :
    after (step { hostState false (w1c 0xffffffff) with
      status := { State.reset.status with done := true, rkvalid := true } }) (fun t => statusWord t.status) =
      some 0x00000010 := by decide +kernel
/-- The fault a step ends in, if it does. -/
def faultOf (o : Host.Outcome State Fault Refusal) : Option Fault :=
  match o with
  | .fault r => some r
  | .next _ | .refused _ => none
theorem test_busError :
    faultOf (step (hostState false (.rd 0x002 4))) = some (.busErrorRead 0x002 4 0) ∧
    faultOf (step (hostState false (.wr 0x010 1 0xAB))) = some (.busErrorWrite 0x010 1) := by decide +kernel
theorem test_write_while_busy_sets_ovr :
    after (step (hostState true (hostWrite 0x010 0xffffffff))) (fun t => (t.state, statusWord t.status)) =
      some (zeroBlock, 0x00000009) := by decide +kernel
theorem test_irq_rises_on_enable :
    after (step { hostState false (hostWrite 0x008 1) with status := { State.reset.status with done := true } }) irq =
      some true := by decide +kernel
/-- The words of L3-3's trace reads of entries 3 and 58, from entries as rule R206 gives them. -/
theorem test_trace_descriptors :
    descriptorWord { emptyEntry with kind := .addRoundKey, hasrk := true } = 0x00001004 ∧
    descriptorWord { emptyEntry with kind := .addRoundKey, round := 14, hasrk := true } = 0x00001e04 := by decide
/-- The columns that L3-1's `ldstate` of V-D1's block writes. -/
theorem test_ldstate :
    ldstate (blk 0x000102030405060708090a0b0c0d0e0f) =
      [.wr 0x010 4 0x03020100, .wr 0x014 4 0x07060504, .wr 0x018 4 0x0b0a0908, .wr 0x01C 4 0x0f0e0d0c] := by decide +kernel
/-- L3-1's line `cmd gfmul 0x57, 0x83`, and an operand beyond its field. -/
theorem test_assembler :
    (assembleLine "gfmul 0x57, 0x83".toList).map encode = some 0x83570003 ∧ assembleLine "ARK 15".toList = some (.ark 15) ∧
    assembleLine "ark 16".toList = none ∧ assembleLine "sbox 256".toList = none := by decide +kernel

/-! Witnesses: for each statement with hypotheses, states and operands that meet them together. -/

theorem fipsSbox_bijective : sboxBijective fipsSbox = true := by decide +kernel

/-- A state in which the Engine is to move on a command word. -/
def engineState (turns : List Turn) (err rkvalid : Bool) (c : Word) : State :=
  { State.reset with
    cmd := c
    turns := turns
    status :=
      { State.reset.status with
        busy := true, err := err, errcode := if err then .noKey else .none, rkvalid := rkvalid } }
/-- The default machine with W expanded from its key. -/
def expanded : State :=
  { State.reset with
    w := keySchedule fipsSbox State.reset.key
    status := { State.reset.status with rkvalid := true } }
/-- The default machine with a pipeline's trace. -/
def traced (d : Direction) : State :=
  { State.reset with
    trace := (pipelineOf d fipsSbox zeroBlock State.reset.key).trace
    status := { State.reset.status with tdir := d, tcount := 60 } }
/-- A table that is no permutation. -/
def constantTable : Vector Byte 256 := Vector.ofFn fun _ => 0

theorem witness_DecodeOfEncodeIsTheCommand :
    (Instr.ark 0).wellFormed = true ∧ (Instr.ark 15).wellFormed = true ∧ (Instr.gfmul 0xff 0xff).wellFormed = true := by decide
theorem witness_LegalWordIsItsCommandsEncoding :
    decode 0xffff0003 = .ok (.gfmul 0xff 0xff) ∧ decode 0x00ff0001 = .ok (.sbox 0xff) ∧ decode 0x00000010 = .ok .dec := by decide
theorem witness_LegalWordsMatchThePatterns : ∃ s : State, s.cmd = 0xffffffff ∧ ¬ ∃ i, decode s.cmd = .ok i := by
  refine ⟨{ State.reset with cmd := 0xffffffff }, rfl, ?_⟩
  rintro ⟨i, h⟩
  have hd : decode 0xffffffff = .error .reservedOpcode := by decide
  rw [show ({ State.reset with cmd := 0xffffffff } : State).cmd = 0xffffffff from rfl, hd] at h
  cases h
/-- Each of the five cases, at the ends of its range. -/
theorem witness_ReservedEncodingsEndInIllegalCmd :
    (0x11 : Byte) ≤ fieldOP 0x00000011 ∧ (0x11 : Byte) ≤ fieldOP 0x000000ff ∧
    fieldRSV 0x00001000 ≠ 0 ∧ fieldRSV 0x0000f000 ≠ 0 ∧
    (fieldR 0x00000100 ≠ 0 ∧ fieldOP 0x00000100 ≠ 0x0E) ∧ (fieldR 0x00000f0d ≠ 0 ∧ fieldOP 0x00000f0d ≠ 0x0E) ∧
    (fieldA 0x00010000 ≠ 0 ∧ fieldOP 0x00010000 ≠ 0x01 ∧ fieldOP 0x00010000 ≠ 0x02 ∧ fieldOP 0x00010000 ≠ 0x03) ∧
    (fieldB 0x01530002 ≠ 0 ∧ fieldOP 0x01530002 ≠ 0x03) := by decide
theorem witness_StepRunsTheCommandInFlight :
    (∃ s u : State, EngineIsNext s u ∧ s.turns = [.engine, .host] ∧ decode s.cmd = .ok (.ark 2)) ∧
    (∃ s u : State, EngineIsNext s u ∧ s.turns = [] ∧ decode s.cmd = .ok .enc) :=
  ⟨⟨engineState [.engine, .host] false false 0x0000020e, _, ⟨fipsSbox_bijective, .inl ⟨_, rfl⟩, rfl, rfl⟩, rfl, by decide⟩,
    ⟨engineState [] false false 0x0000000f, _, ⟨fipsSbox_bijective, .inr rfl, rfl, rfl⟩, rfl, by decide⟩⟩
/-- The word placed by `withFetchWord`. -/
theorem witness_StepRunsTheCommandInFlight_placed :
    sboxBijective State.reset.sboxTable = true ∧ decode 0x0000020e = .ok (.ark 2) := ⟨fipsSbox_bijective, by decide⟩
theorem witness_StepReportsAnIllegalWord :
    ∃ (s u : State) (e : Illegal), EngineIsNext s u ∧ decode s.cmd = .error e :=
  ⟨engineState [.engine] true true 0x00001f0e, _, .reservedField, ⟨fipsSbox_bijective, .inl ⟨_, rfl⟩, rfl, rfl⟩, by decide⟩
/-- An error of the decoder's and one of ARK's, the entry with ERR = 0 and with ERR = 1, and with ERRIE = 1. -/
theorem witness_ErrorEntryKeepsTheFirstError :
    (∃ s t : State, engineStep s = .next t ∧ s.status.err = false ∧ t.status.err = true) ∧
    (∃ s t : State, s.cmd = 0x0000000e ∧ engineStep s = .next t ∧ s.status.err = false ∧ t.status.err = true) ∧
    (∃ s : State, s.status.err = true ∧ s.ctrl.errie = true) ∧ (∃ s : State, s.status.err = false) :=
  ⟨⟨engineState [] false false 0xff, _, engineStep_error (e := .reservedOpcode) (by decide), rfl, rfl⟩,
    ⟨engineState [] false false 0x0e, _, rfl,
      (engineStep_ok (i := .ark 0) (by decide)).trans (exec_ark_noKey _ (by decide) rfl), rfl, rfl⟩,
    ⟨{ engineState [] true false 0xff with ctrl := ctrlOfWord 3 }, rfl, rfl⟩, ⟨State.reset, rfl⟩⟩
theorem witness_ArkReportsTheFirstErrorInOrder :
    (∃ s : State, ∃ e, decode s.cmd = .error e) ∧ (∃ s : State, s.status.rkvalid = false) ∧ 14 < 15 ∧
    (∃ s : State, s.cmd = 0x00001F0E) :=
  ⟨⟨engineState [] false false 0x0100000e, .unusedField, by decide⟩, ⟨State.reset, rfl⟩, by decide,
    ⟨engineState [] false false 0x00001F0E, rfl⟩⟩
/-- For a query, a command on STATE, KEXP and ENC: the step completes and a place is outside its destinations. -/
theorem witness_CommandsChangeOnlyTheirPlaces :
    (∃ t, exec (.sbox 0x53) State.reset = .next t) ∧ writesPlace (.sbox 0x53) (regAt 0x010) = false ∧
    (∃ t, exec (.ark 0) expanded = .next t) ∧ writesPlace (.ark 0) (regAt 0x1EC) = false ∧
    (∃ t, exec .kexp State.reset = .next t) ∧ writesPlace .kexp (regAt 0x00C) = false ∧
    (∃ t, exec .enc State.reset = .next t) ∧ writesPlace .enc (regAt 0x03C) = false :=
  ⟨⟨_, exec_sbox ..⟩, rfl, ⟨_, exec_ark_ok _ (by decide) rfl⟩, rfl, ⟨_, exec_kexp ..⟩, rfl, ⟨_, exec_enc ..⟩, rfl⟩
theorem witness_SboxAndIsboxWriteResult : sboxBijective State.reset.sboxTable = true := fipsSbox_bijective
theorem witness_GfMulFieldLaws : (0x53 : Byte) ≠ 0 ∧ gfMul 0x53 0xca = 1 := by decide +kernel
theorem witness_ResultIsTheLastQuerysByte :
    (∃ t, exec (.sbox 0x00) State.reset = .next t) ∧ (∃ t, exec (.isbox 0xff) State.reset = .next t) ∧
    (∃ t, exec (.gfmul 0xff 0xff) State.reset = .next t) ∧
    (∃ t, exec .nop State.reset = .next t ∧ (∀ a, Instr.nop ≠ .sbox a) ∧ (∀ a, Instr.nop ≠ .isbox a) ∧
      ∀ a b, Instr.nop ≠ .gfmul a b) :=
  ⟨⟨_, exec_sbox ..⟩, ⟨_, exec_isbox ..⟩, ⟨_, exec_gfmul ..⟩, ⟨_, exec_nop _, by simp, by simp, by simp⟩⟩
theorem witness_OnlyBijectiveSboxTablesRun :
    (∃ s : State, ¬ Function.Bijective (sboxAt s.sboxTable)) ∧ ∃ t : Vector Byte 256, Function.Bijective (sboxAt t) := by
  refine ⟨⟨{ State.reset with sboxTable := constantTable }, fun h => ?_⟩,
    ⟨Vector.ofFn fun i => BitVec.ofNat 8 i.val, ?_⟩⟩
  · exact absurd (h.1 (show sboxAt constantTable 0 = sboxAt constantTable 1 by decide +kernel)) (by decide)
  · have h : ∀ b : Byte, sboxAt (Vector.ofFn fun i => BitVec.ofNat 8 i.val) b = b := fun b => by
      simp [sboxAt]
    exact ⟨fun a b hab => by rwa [h, h] at hab, fun b => ⟨b, h b⟩⟩
theorem witness_DefaultSboxIsInverseThenAffine : (∃ x : Byte, x = 0) ∧ ∃ x : Byte, x ≠ 0 :=
  ⟨⟨0, rfl⟩, ⟨0xff, by decide⟩⟩
theorem witness_DiffusionLayerInverses : ∃ (s : Block) (p : Fin 16), s[p] = 0x01 := ⟨counting.state, 1, by decide +kernel⟩
theorem witness_RconIsTheDoublingSequence : ∃ i j : Fin 15, 2 ≤ i.val ∧ i.val = 2 ∧ 2 ≤ j.val ∧ j.val = 14 :=
  ⟨2, 14, by decide⟩
/-- The first and last word of each of the three kinds. -/
theorem witness_KexpWritesTheKeySchedule :
    (∀ i ∈ [8, 56], 8 ≤ i ∧ i < 60 ∧ i % 8 = 0 ∧ i / 8 < 15) ∧ (∀ i ∈ [12, 52], 8 ≤ i ∧ i < 60 ∧ i % 8 = 4) ∧
    (∀ i ∈ [9, 59], 8 ≤ i ∧ i < 60 ∧ i % 8 ≠ 0 ∧ i % 8 ≠ 4) := by decide
theorem witness_SubbAndIsubbLookUpEveryByte : sboxBijective State.reset.sboxTable = true := fipsSbox_bijective
theorem witness_ArkXorsTheRoundKey : expanded.status.rkvalid = true ∧ 0 < 15 ∧ 14 < 15 := ⟨rfl, by decide, by decide⟩
theorem witness_EncWritesTheWholeTrace :
    ∃ r r' : Fin 15, (1 ≤ r.val ∧ r.val ≤ 13 ∧ r.val = 1) ∧ (1 ≤ r'.val ∧ r'.val ≤ 13 ∧ r'.val = 13) :=
  ⟨1, 13, by decide⟩
theorem witness_DecWritesTheWholeTrace :
    ∃ r r' : Fin 15, (1 ≤ r.val ∧ r.val ≤ 13 ∧ r.val = 1) ∧ (1 ≤ r'.val ∧ r'.val ≤ 13 ∧ r'.val = 13) :=
  ⟨1, 13, by decide⟩
theorem witness_DecryptUndoesEncryptAndMirrorsItsTrace :
    sboxBijective fipsSbox = true ∧ sboxBijective State.reset.sboxTable = true ∧ 0 ≤ 58 ∧ 58 ≤ 58 :=
  ⟨fipsSbox_bijective, fipsSbox_bijective, by decide, by decide⟩
theorem witness_PipelinesDependOnlyOnStateAndKey :
    (Instr.enc = .enc ∨ Instr.enc = .dec) ∧ (Instr.dec = .enc ∨ Instr.dec = .dec) ∧
    State.reset.state = expanded.state ∧ State.reset.key = expanded.key ∧ State.reset.sboxTable = expanded.sboxTable :=
  ⟨.inl rfl, .inr rfl, rfl, rfl, rfl⟩
theorem witness_ElementaryCommandsReproduceThePipelines :
    expanded.status.rkvalid = true ∧ expanded.w = keySchedule expanded.sboxTable expanded.key ∧ 0 ≤ 58 ∧ 58 ≤ 58 :=
  ⟨rfl, rfl, by decide, by decide⟩
theorem witness_ResetStateRunsEncAndRefusesArk : 0 < 15 ∧ 14 < 15 := by decide

/-- Whatever access the Host has to make, and whatever BUSY is, a state in which it is to make it. -/
theorem hostIsNext_hostState (busy : Bool) (op : HostOp) :
    ∃ u, HostIsNext op (hostState busy op) u ∧ (hostState busy op).rst = false ∧ u.status.busy = busy :=
  ⟨_, ⟨fipsSbox_bijective, .inl ⟨_, rfl⟩, ⟨_, rfl⟩, rfl⟩, rfl, rfl⟩
/-- The same with no turn named, while BUSY = 0. -/
theorem hostIsNext_unscheduled (op : HostOp) : ∃ s u : State, HostIsNext op s u ∧ s.turns = [] ∧ s.rst = false :=
  ⟨{ State.reset with hostOps := [op] }, _, ⟨fipsSbox_bijective, .inr ⟨rfl, rfl⟩, ⟨_, rfl⟩, rfl⟩, rfl, rfl⟩
/-- The same with RST asserted. -/
theorem hostIsNext_in_reset (op : HostOp) : ∃ s u : State, HostIsNext op s u ∧ s.rst = true :=
  ⟨{ hostState false op with rst := true }, _, ⟨fipsSbox_bijective, .inl ⟨_, rfl⟩, ⟨_, rfl⟩, rfl⟩, rfl⟩
theorem witness_BothResetSourcesReset :
    (∃ s u : State, HostIsNext (.wr 0x008 4 0x80000003) s u ∧ s.rst = false) ∧ (0x80000003 : Word).getLsbD 31 = true ∧
    (∃ s : State, sboxBijective s.sboxTable = true ∧ s.turns = [.rst true]) ∧
    (∀ off ∈ [0x000, 0x1FFC, 0x1FFF], off < 0x2000 ∧ (∃ s u : State, HostIsNext (.rd off 4) s u ∧ s.rst = true) ∧
      ∃ s u : State, HostIsNext (.wr off 4 0) s u ∧ s.rst = true) := by
  refine ⟨?_, by decide, ⟨{ State.reset with turns := [.rst true] }, fipsSbox_bijective, rfl⟩, fun off ho => ⟨?_, ?_, ?_⟩⟩
  · obtain ⟨u, h, hr, -⟩ := hostIsNext_hostState true (.wr 0x008 4 0x80000003)
    exact ⟨_, u, h, hr⟩
  · revert off
    decide
  · exact hostIsNext_in_reset _
  · exact hostIsNext_in_reset _
/-- Every clause's offsets at the ends of its range, with BUSY = 0 and BUSY = 1. -/
theorem witness_HostWriteByOffset :
    ∀ off ∈ [0x000, 0x004, 0x008, 0x00C, 0x010, 0x01C, 0x020, 0x03C, 0x040, 0x0FC, 0x100, 0x1EC, 0x1F0, 0xFFC, 0x1000, 0x1EFC,
      0x1F00, 0x1FFC], ∀ (busy : Bool) (v : Word), off < 0x2000 ∧ off % 4 = 0 ∧
      ∃ s u : State, HostIsNext (.wr off 4 v) s u ∧ s.rst = false ∧ u.status.busy = busy := by
  intro off ho busy v
  have ha : off < 0x2000 ∧ off % 4 = 0 := by revert off; decide
  obtain ⟨u, h⟩ := hostIsNext_hostState busy (.wr off 4 v)
  exact ⟨ha.1, ha.2, _, u, h⟩
/-- The bits that the clauses of a write ask for. -/
theorem witness_HostWriteByOffset_srst : (0x80000000 : Word).getLsbD 31 = true ∧ (0x7fffffff : Word).getLsbD 31 = false := by
  decide
theorem witness_HostReadByOffset :
    ∀ off ∈ [0x000, 0x004, 0x008, 0x00C, 0x010, 0x01C, 0x020, 0x03C, 0x040, 0x0FC, 0x100, 0x1EC, 0x1F0, 0xFFC, 0x1000, 0x1004,
      0x100C, 0x1010, 0x101C, 0x1020, 0x102C, 0x1030, 0x103C, 0x1EC0, 0x1EFC, 0x1F00, 0x1FFC], ∀ busy : Bool,
      off < 0x2000 ∧ off % 4 = 0 ∧
      ∃ s u : State, HostIsNext (.rd off 4) s u ∧ s.rst = false ∧ u.status.busy = busy := by
  intro off ho busy
  have ha : off < 0x2000 ∧ off % 4 = 0 := by revert off; decide
  obtain ⟨u, h⟩ := hostIsNext_hostState busy (.rd off 4)
  exact ⟨ha.1, ha.2, _, u, h⟩
/-- The trace clauses' offsets: the ends of what is held and of what is reserved, in the first and the last entry. -/
theorem witness_HostReadByOffset_traceWords :
    (∀ o ∈ [0x00, 0x10, 0x2C], o = 0 ∨ (0x10 ≤ o ∧ o < 0x30)) ∧
    (∀ o ∈ [0x04, 0x0C, 0x30, 0x3C], (4 ≤ o ∧ o < 0x10) ∨ (0x30 ≤ o ∧ o < 0x40)) ∧
    ∀ n ∈ [(0 : Fin 60), 59], ∀ o ∈ [0x00, 0x04, 0x0C, 0x10, 0x2C, 0x30, 0x3C], ∀ busy : Bool,
      ∃ s u : State, HostIsNext (.rd (0x1000 + 64 * n.val + o) 4) s u ∧ s.rst = false ∧ u.status.busy = busy := by
  refine ⟨by decide, by decide, fun n _ o _ busy => ?_⟩
  obtain ⟨u, h⟩ := hostIsNext_hostState busy (.rd (0x1000 + 64 * n.val + o) 4)
  exact ⟨_, u, h⟩
/-- A trace entry that is valid and one that is not. -/
theorem witness_HostReadByOffset_trace :
    (∃ (s : State) (n : Fin 60), s.status.busy = false ∧ n.val < s.status.tcount.toNat) ∧
    (∃ (s : State) (n : Fin 60), s.status.busy = false ∧ s.status.tcount.toNat ≤ n.val) :=
  ⟨⟨traced .enc, 59, rfl, by decide⟩, ⟨State.reset, 0, rfl, by decide⟩⟩
theorem witness_UndefinedAccessesGetBusError :
    ∀ off ∈ [0x000, 0x002, 0x1FFF], ∀ n ∈ [1, 2, 8], off < 0x2000 ∧ (n ≠ 4 ∨ off % 4 ≠ 0) ∧
      (∃ s u : State, HostIsNext (.rd off n) s u) ∧ ∃ s u : State, HostIsNext (.wr off n 0xAB) s u := by
  intro off ho n hn
  have ha : off < 0x2000 ∧ (n ≠ 4 ∨ off % 4 ≠ 0) := by revert n; revert off; decide
  obtain ⟨u, h, -⟩ := hostIsNext_hostState true (.rd off n)
  obtain ⟨u', h', -⟩ := hostIsNext_hostState false (.wr off n 0xAB)
  exact ⟨ha.1, ha.2, ⟨_, u, h⟩, ⟨_, u', h'⟩⟩
/-- Width 4 at an offset that is not aligned. -/
theorem witness_UndefinedAccessesGetBusError_misaligned :
    (0x1FFD < 0x2000 ∧ (4 ≠ 4 ∨ 0x1FFD % 4 ≠ 0)) ∧ ∃ s u : State, HostIsNext (.rd 0x1FFD 4) s u := by
  obtain ⟨u, h, -⟩ := hostIsNext_hostState false (.rd 0x1FFD 4)
  exact ⟨by decide, _, u, h⟩
theorem witness_CmdWriteIsAcceptedWhileIdle :
    ∃ s u : State, HostIsNext (.wr 0x000 4 0xffffffff) s u ∧ s.rst = false ∧ u.status.busy = false := by
  obtain ⟨u, h⟩ := hostIsNext_hostState false (.wr 0x000 4 0xffffffff)
  exact ⟨_, u, h⟩
theorem witness_KeyWriteInvalidatesTheRoundKeys :
    ∀ k : Fin 8, ∃ s u : State, HostIsNext (.wr (0x020 + 4 * k.val) 4 0) s u ∧ s.rst = false ∧ u.status.busy = false := by
  intro k
  obtain ⟨u, h⟩ := hostIsNext_hostState false (.wr (0x020 + 4 * k.val) 4 0)
  exact ⟨_, u, h⟩
theorem witness_WritesWhileBusyAreDiscarded :
    (∀ off ∈ [0x000, 0x010, 0x01C, 0x020, 0x03C], off % 4 = 0 ∧ (off = 0x000 ∨ (0x010 ≤ off ∧ off < 0x040))) ∧
    ∀ off ∈ [0x000, 0x004, 0x008, 0x010, 0x03C],
      ∃ s u : State, HostIsNext (.wr off 4 0xffffffff) s u ∧ s.rst = false ∧ u.status.busy = true := by
  refine ⟨by decide, fun off _ => ?_⟩
  obtain ⟨u, h⟩ := hostIsNext_hostState true (.wr off 4 0xffffffff)
  exact ⟨_, u, h⟩
theorem witness_CtrlWriteEnablesOrResets :
    ∀ v ∈ [(0x80000003 : Word), 0x00000003], ∀ busy : Bool,
      ∃ s u : State, HostIsNext (.wr 0x008 4 v) s u ∧ s.rst = false ∧ u.status.busy = busy := by
  intro v _ busy
  obtain ⟨u, h⟩ := hostIsNext_hostState busy (.wr 0x008 4 v)
  exact ⟨_, u, h⟩
/-- The enables with their conditions, and the words that the last clauses ask for. -/
theorem witness_IrqFollowsPendingAndEnable :
    (∃ s t : State, exec .nop s = .next t ∧ s.ctrl.doneie = true) ∧
    ((0x00000006 : Word).getLsbD 1 = true ∧ (0x00000006 : Word).getLsbD 2 = true) ∧ (0x00000003 : Word).getLsbD 31 = false ∧
    (∃ s : State, s.status.busy = false ∧ s.ctrl.errie = false) ∧
    (∃ s : State, s.ctrl.doneie = true ∧ s.status.done = true ∧ s.ctrl.errie = true ∧ s.status.err = true) :=
  ⟨⟨{ State.reset with ctrl := ctrlOfWord 1 }, _, exec_nop _, rfl⟩, by decide, by decide, ⟨State.reset, rfl, rfl⟩,
    ⟨{ engineState [] true false 0 with ctrl := ctrlOfWord 3, status := failedStatus .noKey State.reset.status }, rfl, rfl, rfl, rfl⟩⟩
theorem witness_ReadsHaveNoSideEffect : State.reset.status.busy = false ∧ drawMask (.key 7) = 0 := ⟨rfl, rfl⟩
/-- A reset, a discarded write and a read, each while BUSY = 1. -/
theorem witness_HostCannotDisturbTheCommandInFlight :
    ∀ op ∈ [hostWrite 0x008 0x80000000, hostWrite 0x020 0, hostRead 0x1EFC, HostOp.wait],
      (hostState true op).status.busy = true ∧ ∃ t, hostTurn (hostState true op) = .next t := by
  intro op hop
  refine ⟨rfl, ?_⟩
  simp only [List.mem_cons, List.not_mem_nil, or_false] at hop
  rcases hop with rfl | rfl | rfl | rfl <;> exact ⟨_, rfl⟩

theorem inv_expanded : Inv expanded :=
  ⟨⟨by simp [expanded, State.reset], .inl rfl, nofun⟩, fun _ => rfl,
    ⟨fun _ => ⟨rfl, fun n => by simp [expanded, State.reset]⟩, fun h => absurd (show (0 : Byte) = 60 from h) (by decide)⟩,
    nofun⟩
theorem inv_traced (d : Direction) : Inv (traced d) :=
  ⟨⟨by simp [traced, State.reset], .inr rfl, nofun⟩, nofun,
    ⟨fun h => absurd (show (60 : Byte) = 0 from h) (by decide), fun _ => ⟨_, _, rfl⟩⟩, nofun⟩
/-- A state whose round keys are valid, two with traces and one with RST asserted, each with a next state. -/
theorem witness_EveryStepKeepsTheInvariant :
    (Inv expanded ∧ ∃ t, step expanded = .next t) ∧ (∀ d, Inv (traced d) ∧ ∃ t, step (traced d) = .next t) ∧
    ∃ s : State, s.rst = true ∧ Inv s := by
  refine ⟨⟨inv_expanded, expanded, ?_⟩, fun d => ⟨inv_traced d, traced d, ?_⟩, { State.reset with rst := true }, rfl, ?_⟩
  · simp [step, runTurn, expanded, State.reset, fipsSbox_bijective, hostTurn]
  · simp [step, runTurn, traced, State.reset, fipsSbox_bijective, hostTurn]
  · exact ⟨⟨by simp [State.reset], .inl rfl, nofun⟩, nofun,
      ⟨fun _ => ⟨rfl, fun n => by simp [State.reset]⟩, fun h => absurd (show (0 : Byte) = 60 from h) (by decide)⟩, fun _ => rfl⟩
theorem witness_NoStepChangesTheSboxTable : ∃ s t : State, step s = .next t :=
  ⟨expanded, expanded, by simp [step, runTurn, expanded, State.reset, fipsSbox_bijective, hostTurn]⟩
/-- A safe state with a command in flight, a schedule and a host program. -/
def busySafe : State :=
  { engineState [.host, .rst false, .host, .engine] false false 0x0000000f with
    hostOps := [hostWrite 0x1FFC 0xffffffff, hostRead 0x000, HostOp.wait] }
theorem witness_SafeStatesStepToSafeStates : Safe busySafe := ⟨fipsSbox_bijective, by decide, rfl, by decide⟩
theorem witness_CommandInFlightCompletesWithinTheSchedule :
    Safe busySafe ∧ busySafe.status.busy = true ∧ ∀ op ∈ busySafe.hostOps, op.resets = false :=
  ⟨⟨fipsSbox_bijective, by decide, rfl, by decide⟩, rfl, by decide⟩
/-- The second clause with a reset write next. -/
theorem witness_CommandInFlightCompletesWithinTheSchedule_reset :
    ∃ s : State, Safe s ∧ s.status.busy = true ∧ (hostWrite 0x008 0x80000000).resets = true ∧
      s.hostOps = [hostWrite 0x008 0x80000000] :=
  ⟨{ busySafe with hostOps := [hostWrite 0x008 0x80000000] }, ⟨fipsSbox_bijective, by decide, rfl, by decide⟩, rfl, by decide,
    rfl⟩
/-- Texts shorter and longer than a block. -/
theorem witness_CodecPadsAndTruncates :
    (∃ (bytes : List Byte) (p q : Fin 16), p.val < bytes.length ∧ bytes.length ≤ q.val ∧ q.val = 1) ∧
    (∃ (bytes : List Byte) (p : Fin 16), p.val < bytes.length ∧ bytes.length = 17 ∧ p.val = 15) :=
  ⟨⟨[0x48], 0, 1, by decide⟩, ⟨List.replicate 17 0x48, 15, by decide⟩⟩
/-- Every range of reserved offsets at its ends, and every range of ignored writes. -/
theorem witness_ReservedOffsetsReadZeroAndIgnoreWrites :
    (∀ off ∈ [0x040, 0x0FC, 0x1F0, 0xFFC, 0x1F00, 0x1FFC], off < 0x2000 ∧ off % 4 = 0 ∧
      ((0x040 ≤ off ∧ off < 0x100) ∨ (0x1F0 ≤ off ∧ off < 0x1000) ∨ 0x1F00 ≤ off)) ∧
    (∀ off ∈ [0x1004, 0x100C, 0x1030, 0x103C, 0x1EC4, 0x1ECC, 0x1EF0, 0x1EFC], off < 0x2000 ∧ off % 4 = 0 ∧
      ∃ n : Fin 60, (0x1004 + 64 * n.val ≤ off ∧ off ≤ 0x100C + 64 * n.val) ∨
        (0x1030 + 64 * n.val ≤ off ∧ off ≤ 0x103C + 64 * n.val)) ∧
    (∀ off ∈ [0x00C, 0x040, 0x100, 0x1EC, 0x1000, 0x1FFC], off < 0x2000 ∧ off % 4 = 0 ∧ (off = 0x00C ∨ 0x040 ≤ off)) ∧
    ∀ (off : Nat) (v : Word) (busy : Bool),
      (∃ s u : State, HostIsNext (.rd off 4) s u ∧ s.rst = false ∧ u.status.busy = busy) ∧
      ∃ s u : State, HostIsNext (.wr off 4 v) s u ∧ s.rst = false ∧ u.status.busy = busy := by
  refine ⟨by decide, by decide, by decide, fun off v busy => ?_⟩
  obtain ⟨u, h⟩ := hostIsNext_hostState busy (.rd off 4)
  obtain ⟨u', h'⟩ := hostIsNext_hostState busy (.wr off 4 v)
  exact ⟨⟨_, u, h⟩, ⟨_, u', h'⟩⟩

end Sys2Proof.Tests
end

section
/-! PROOF. Every entry an ENC or DEC writes is a proper one, and each of the two pipelines writes 60 (44_pipeline.md rules R201,
R205 and R208). -/

namespace Sys2Proof.Machine

variable {f : Block → Block} {kind : StepKind} {round : Nat} {k : Option Block} {p : Pipeline} {t : Vector Byte 256}
  {w : ExpandedKey} {r : Fin 15}

/-! SEQ. -/

@[simp] theorem encryptLastRound_seq : (encryptLastRound t w p).seq = p.seq + 3 := rfl
@[simp] theorem decryptLastRound_seq : (decryptLastRound t w p).seq = p.seq + 5 := rfl

/-- Rounds of four emits each add four to SEQ for every round. -/
theorem foldl_seq {body : Pipeline → Fin 15 → Pipeline} (hbody : ∀ p r, (body p r).seq = p.seq + 4)
    (rs : List (Fin 15)) (p : Pipeline) : (rs.foldl body p).seq = p.seq + 4 * rs.length := by
  induction rs generalizing p with
  | nil => rfl
  | cons r rs ih => rw [List.foldl_cons, ih, hbody, List.length_cons]; omega

@[simp] theorem middleRounds_length : middleRounds.length = 13 := rfl

/-- INPUT, BITSHIFT, TRANSPOSE and the first key; 13 rounds of four; the last round's three; OUTPUT. -/
@[simp] theorem encrypt_seq (t : Vector Byte 256) (block : Block) (key : Key) : (encrypt t block key).seq = 60 := by
  simp [encrypt, foldl_seq fun p r => encryptRound_seq p t _ r]

/-- INPUT and the last key; 13 rounds of four; the last round's five; OUTPUT. -/
@[simp] theorem decrypt_seq (t : Vector Byte 256) (block : Block) (key : Key) : (decrypt t block key).seq = 60 := by
  simp [decrypt, foldl_seq fun p r => decryptRound_seq p t _ r, -List.foldl_reverse]

/-! The entries. -/

/-- An entry as rules R31 and R205 want every written one: of a kind other than EMPTY with a code of R205's table, HASRK exactly
for ADD_ROUND_KEY, and a round of the cipher. -/
def TraceEntry.Proper (e : TraceEntry) : Prop :=
  e.kind ≠ .empty ∧ (e.hasrk = true ↔ e.kind = .addRoundKey) ∧ e.kind.code ≤ 0x0D ∧ e.round ≤ 14

/-- The codes of rule R205's table end at 0x0D. -/
theorem StepKind.code_le (kind : StepKind) : kind.code ≤ 0x0D := by cases kind <;> decide

theorem entryOf_proper {s : Block} (hkind : kind ≠ .empty) (hkey : k.isSome = true ↔ kind = .addRoundKey)
    (hround : round ≤ 14) : (entryOf kind round k s).Proper := by
  have hr : BitVec.ofNat 4 round ≤ 14 := by
    rw [BitVec.le_def, BitVec.toNat_ofNat, Nat.mod_eq_of_lt (by omega)]
    exact hround
  exact ⟨hkind, hkey, kind.code_le, hr⟩

/-- Every entry below SEQ is proper; the entries from SEQ on are not written yet. -/
def WrittenProper (p : Pipeline) : Prop := ∀ (i : Nat) (_ : i < 60), i < p.seq → p.trace[i].Proper

/-- An emit keeps it when the entry it writes is proper. -/
theorem emit_writtenProper (hentry : (entryOf kind round k p.s).Proper) (h : WrittenProper p) :
    WrittenProper (emit kind round k p) := by
  intro i hi hlt
  rw [emit_seq] at hlt
  rw [emit_trace]
  split
  next => exact hentry
  next hne => exact h i hi (by omega)

/-- A stage keeps it whatever its function is, since it records no key. -/
theorem stage_writtenProper (hkind : kind ≠ .empty ∧ kind ≠ .addRoundKey) (hround : round ≤ 14) (h : WrittenProper p) :
    WrittenProper (stage f kind round p) :=
  emit_writtenProper (entryOf_proper hkind.1 (by simp [hkind.2]) hround) h

/-- A key stage keeps it for every round key. -/
theorem keyStage_writtenProper (h : WrittenProper p) : WrittenProper (keyStage w r p) :=
  emit_writtenProper (entryOf_proper (by decide) (by simp) (Nat.le_of_lt_succ r.isLt)) h

theorem beginPipeline_writtenProper (s : Block) : WrittenProper (beginPipeline s) :=
  emit_writtenProper (entryOf_proper (by decide) (by decide) (by decide)) fun i _ hlt => absurd hlt i.not_lt_zero

theorem encryptRound_writtenProper (h : WrittenProper p) : WrittenProper (encryptRound t w p r) :=
  have hr : r.val ≤ 14 := Nat.le_of_lt_succ r.isLt
  keyStage_writtenProper <| stage_writtenProper (by decide) hr <| stage_writtenProper (by decide) hr <|
    stage_writtenProper (by decide) hr h

theorem decryptRound_writtenProper (h : WrittenProper p) : WrittenProper (decryptRound t w p r) :=
  have hr : r.val ≤ 14 := Nat.le_of_lt_succ r.isLt
  stage_writtenProper (by decide) hr <| keyStage_writtenProper <| stage_writtenProper (by decide) hr <|
    stage_writtenProper (by decide) hr h

theorem encryptLastRound_writtenProper (h : WrittenProper p) : WrittenProper (encryptLastRound t w p) :=
  keyStage_writtenProper <| stage_writtenProper (by decide) (by decide) <| stage_writtenProper (by decide) (by decide) h

theorem decryptLastRound_writtenProper (h : WrittenProper p) : WrittenProper (decryptLastRound t w p) :=
  stage_writtenProper (by decide) (by decide) <| stage_writtenProper (by decide) (by decide) <| keyStage_writtenProper <|
    stage_writtenProper (by decide) (by decide) <| stage_writtenProper (by decide) (by decide) h

/-- OUTPUT, the last entry of both directions. -/
theorem emitOutput_writtenProper (h : WrittenProper p) : WrittenProper (emit .output 0 none p) :=
  emit_writtenProper (entryOf_proper (by decide) (by decide) (by decide)) h

theorem encrypt_writtenProper (block : Block) (key : Key) : WrittenProper (encrypt t block key) := by
  refine emitOutput_writtenProper (encryptLastRound_writtenProper
    (List.foldlRecOn middleRounds _ ?start fun p hp r _ => encryptRound_writtenProper hp))
  case start => exact keyStage_writtenProper <| stage_writtenProper (by decide) (by decide) <|
    stage_writtenProper (by decide) (by decide) <| beginPipeline_writtenProper block

theorem decrypt_writtenProper (block : Block) (key : Key) : WrittenProper (decrypt t block key) := by
  refine emitOutput_writtenProper (decryptLastRound_writtenProper
    (List.foldlRecOn middleRounds.reverse _ ?start fun p hp r _ => decryptRound_writtenProper hp))
  case start => exact keyStage_writtenProper <| beginPipeline_writtenProper block

/-! Both directions. -/

theorem pipelineOf_seq (d : Direction) (block : Block) (key : Key) : (pipelineOf d t block key).seq = 60 := by
  cases d with
  | enc => exact encrypt_seq t block key
  | dec => exact decrypt_seq t block key

theorem pipelineOf_writtenProper (d : Direction) (block : Block) (key : Key) :
    WrittenProper (pipelineOf d t block key) := by
  cases d with
  | enc => exact encrypt_writtenProper block key
  | dec => exact decrypt_writtenProper block key

/-- Settles O35: every emit writes a proper entry at SEQ, and SEQ, which starts at 0, ends at 60, so every entry is written. -/
theorem tracesAreSixtySteps : Obligations.TracesAreSixtySteps := by
  unfold Obligations.TracesAreSixtySteps
  intro d t block key
  have hseq : (pipelineOf d t block key).seq = 60 := pipelineOf_seq d block key
  exact ⟨hseq, fun n => pipelineOf_writtenProper d block key n.val n.isLt (hseq.symm ▸ n.isLt)⟩

end Sys2Proof.Machine
end

section
/-! PROOF. What a command, a turn of the Host and a whole step can change: the frames from which the claims of 10_state.md
follow. -/

namespace Sys2Proof.Machine

variable {s t u : State} {i : Instr}

/-! Commands. -/

/-- A command writes nothing but STATUS, RESULT, STATE, W and TRACE. -/
theorem exec_frame (h : exec i s = .next t) :
    t = { s with status := t.status, result := t.result, state := t.state, w := t.w, trace := t.trace } := by
  rcases exec_cases i s with ⟨_, _, _, _, he⟩ | he | ⟨_, _, he⟩ | ⟨_, _, he⟩ | ⟨_, he⟩ | ⟨_, _, he⟩ <;>
    (rw [he] at h; cases h; rfl)

/-- A command ends with BUSY = 0 and DONE = 1. -/
theorem exec_completes (h : exec i s = .next t) : t.status.busy = false ∧ t.status.done = true := by
  rcases exec_cases i s with ⟨_, _, _, _, he⟩ | he | ⟨_, _, he⟩ | ⟨_, _, he⟩ | ⟨_, he⟩ | ⟨_, _, he⟩ <;>
    (rw [he] at h; cases h; exact ⟨rfl, rfl⟩)

/-- A command whose destinations do not include RESULT leaves it. -/
theorem exec_keeps_result (hi : writesPlace i .result = false) (h : exec i s = .next t) : t.result = s.result := by
  rcases exec_cases i s with ⟨_, _, _, _, he⟩ | he | ⟨_, hwrites, _⟩ | ⟨_, _, he⟩ | ⟨_, he⟩ | ⟨_, _, he⟩
  case inr.inr.inl => rw [hi] at hwrites; cases hwrites
  all_goals rw [he] at h; cases h; rfl

/-! The Host's turn. -/

/-- `t` is `s` but for the fields that are no registers of the engine and that a turn moves on: the Host's program and results, the
schedule and the count of draws. -/
def OnlyBookkept (s t : State) : Prop :=
  ∃ draws ops reads turns, t = { s with draws := draws, hostOps := ops, hostReads := reads, turns := turns }

theorem OnlyBookkept.refl (s : State) : OnlyBookkept s s := ⟨_, _, _, _, rfl⟩

theorem OnlyBookkept.trans (h : OnlyBookkept s t) (h' : OnlyBookkept t u) : OnlyBookkept s u := by
  obtain ⟨_, _, _, _, rfl⟩ := h
  obtain ⟨_, _, _, _, rfl⟩ := h'
  exact ⟨_, _, _, _, rfl⟩

/-- All that a turn of the Host can do: nothing, a read or a poll, which leave every register, or its oldest access is a write. -/
theorem hostTurn_cases (h : hostTurn s = .next t) :
    (OnlyBookkept s t ∧ t.turns = s.turns ∧ ∀ op ∈ s.hostOps.head?, op.resets = false) ∨
    (s.rst = false ∧ ∃ off v rest, s.hostOps = .wr off 4 v :: rest ∧
      t = memWrite (regAt off) v { s with hostOps := rest }) := by
  unfold hostTurn at h
  split at h
  next hops => cases h; exact .inl ⟨.refl s, rfl, by simp [hops]⟩
  next op rest hops =>
    obtain ⟨hr, ⟨off, rfl, -, -, rfl⟩ | ⟨off, v, rfl, -, -, rfl⟩ | ⟨rfl, ops, -, rfl⟩⟩ := hostAccess_cases h
    · rw [memRead_state]
      exact .inl ⟨⟨_, _, _, _, rfl⟩, rfl, by simp [hops, HostOp.resets]⟩
    · exact .inr ⟨hr, off, v, rest, hops, rfl⟩
    · rw [memRead_state]
      exact .inl ⟨⟨_, _, _, _, rfl⟩, rfl, by simp [hops, HostOp.resets]⟩

/-- No write reaches the RST input or the configuration, which Reset() leaves too. -/
theorem memWrite_keeps_rst_and_sboxTable (r : WindowReg) (v : Word) (s : State) :
    (memWrite r v s).rst = s.rst ∧ (memWrite r v s).sboxTable = s.sboxTable := by
  rcases memWrite_cases r v s with h | h | h | ⟨_, _, h⟩ | ⟨_, _, h⟩ | ⟨_, h | ⟨_, h⟩ | ⟨_, h⟩⟩ <;>
    (rw [h]; exact ⟨rfl, rfl⟩)

/-! The step. -/

/-- All that a step can do to the registers: nothing, the Engine's end of the command in flight, a write of the Host's while RST
is released, or a change of RST. -/
theorem step_register_cases (h : step s = .next t) :
    ∃ u, OnlyBookkept s u ∧
      (t = u ∨
        (u.status.busy = true ∧ (t = raiseCmdError .illegalCmd u ∨ ∃ i, exec i u = .next t)) ∨
        (u.rst = false ∧ ∃ r v, t = memWrite r v u) ∨
        ∃ level, rstTurn level u = .next t) := by
  obtain ⟨-, ⟨u, hu, hagent⟩ | ⟨level, hrst⟩⟩ := step_cases h
  · have hsu : OnlyBookkept s u := by rcases hu with rfl | rfl <;> exact ⟨_, _, _, _, rfl⟩
    obtain hengine | hhost := hagent
    · refine ⟨u, hsu, ?_⟩
      obtain ⟨-, rfl⟩ | ⟨hb, rfl⟩ | ⟨hb, i, -, hexec⟩ := engineTurn_cases hengine
      · exact .inl rfl
      · exact .inr (.inl ⟨hb, .inl rfl⟩)
      · exact .inr (.inl ⟨hb, .inr ⟨i, hexec⟩⟩)
    · obtain ⟨hut, -⟩ | ⟨hr, off, v, rest, -, rfl⟩ := hostTurn_cases hhost
      · exact ⟨t, hsu.trans hut, .inl rfl⟩
      · exact ⟨{ u with hostOps := rest }, hsu.trans ⟨_, _, _, _, rfl⟩, .inr (.inr (.inl ⟨hr, _, v, rfl⟩))⟩
  · exact ⟨_, ⟨_, _, _, _, rfl⟩, .inr (.inr (.inr ⟨level, hrst⟩))⟩

end Sys2Proof.Machine
end

section
/-! PROOF. The invariant of the machine holds at reset and every step keeps it (O52 and O53), and no step changes the configured
S-box (O54). -/

namespace Sys2Proof.Machine

variable {s t u : State} {st : Status} {i : Instr}

/-! STATUS. -/

theorem completedStatus_ok (h : StatusOk st) : StatusOk (completedStatus st) := by
  obtain ⟨herr, htcount, -⟩ := h
  exact ⟨herr, htcount, nofun⟩

/-- An accepted command sets BUSY and clears DONE with it. -/
theorem acceptedStatus_ok (h : StatusOk st) : StatusOk { st with busy := true, done := false } := by
  obtain ⟨herr, htcount, -⟩ := h
  exact ⟨herr, htcount, fun _ => rfl⟩

/-- The error entry sets ERR and keeps the first error's code, which is no code of 0. -/
theorem failedStatus_ok {code : ErrCode} (hcode : code ≠ .none) (h : StatusOk st) : StatusOk (failedStatus code st) := by
  obtain ⟨herr, htcount, -⟩ := h
  refine ⟨?_, htcount, nofun⟩
  cases he : st.err with
  | false => simp [he, hcode]
  | true => simp [he, herr]

/-- Writing 1 to bit 2 clears ERR and ERRCODE together. -/
theorem clearStatusBits_ok (v : Word) (h : StatusOk st) : StatusOk (clearStatusBits v st) := by
  obtain ⟨herr, htcount, hbusy⟩ := h
  refine ⟨?_, htcount, fun hb => by simp [clearStatusBits, hbusy hb]⟩
  simp only [clearStatusBits]
  cases v.getLsbD 2 with
  | false => simpa using herr
  | true => simp

/-! The registers without the RST input. -/

/-- The invariant but for what it says of RST. -/
def RegistersOk (s : State) : Prop := StatusOk s.status ∧ RoundKeysOk s ∧ TraceOk s

theorem RegistersOk.complete (h : RegistersOk s) : RegistersOk (complete s) :=
  ⟨completedStatus_ok h.1, h.2⟩

theorem RegistersOk.raiseCmdError {code : ErrCode} (hcode : code ≠ .none) (h : RegistersOk s) :
    RegistersOk (raiseCmdError code s) :=
  ⟨failedStatus_ok hcode h.1, h.2⟩

/-- The reset values, whatever the configured table is. -/
theorem registersOk_resetEngine (s : State) : RegistersOk (resetEngine s) := by
  refine ⟨⟨iff_of_true rfl rfl, .inl rfl, nofun⟩, nofun, fun _ => ⟨rfl, fun n => ?_⟩, fun h => ?_⟩
  · simp [State.reset]
  · exact absurd (show (0 : Byte) = 60 from h) (by decide)

/-- ENC and DEC leave W the key schedule of KEY, and TRACE the trace of what STATE and KEY were. -/
theorem RegistersOk.pipelineResult (d : Direction) (h : RegistersOk s) : RegistersOk (pipelineResult d s) := by
  obtain ⟨⟨herr, -, -⟩, -, -⟩ := h
  rw [pipelineResult_eq]
  exact ⟨⟨herr, .inr rfl, nofun⟩, fun _ => rfl, fun h => absurd h (by decide : (60 : Byte) ≠ 0), fun _ => ⟨_, _, rfl⟩⟩

theorem RegistersOk.exec (h : RegistersOk s) (hexec : exec i s = .next t) : RegistersOk t := by
  rcases exec_cases i s with ⟨_, code, hcode, _, he⟩ | he | ⟨_, _, he⟩ | ⟨_, _, he⟩ | ⟨_, he⟩ | ⟨d, _, he⟩ <;>
    (rw [he] at hexec; cases hexec)
  case inl => exact h.raiseCmdError (by rcases hcode with rfl | rfl <;> decide)
  case inr.inl => exact h.complete
  case inr.inr.inl b _ => exact RegistersOk.complete (s := setResult b s) h
  case inr.inr.inr.inl b _ => exact RegistersOk.complete (s := setState b s) h
  case inr.inr.inr.inr.inl =>
    obtain ⟨hstatus, -, htrace⟩ := h
    exact RegistersOk.complete ⟨hstatus, fun _ => rfl, htrace⟩
  case inr.inr.inr.inr.inr => exact h.pipelineResult d

theorem RegistersOk.memWrite (r : WindowReg) (v : Word) (h : RegistersOk s) : RegistersOk (memWrite r v s) := by
  obtain ⟨hstatus, hkeys, htrace⟩ := h
  rcases memWrite_cases r v s with he | he | he | ⟨_, _, he⟩ | ⟨_, _, he⟩ | ⟨_, he | ⟨_, he⟩ | ⟨_, he⟩⟩ <;> rw [he]
  case inr.inr.inl => exact ⟨clearStatusBits_ok v hstatus, hkeys, htrace⟩
  case inr.inr.inr.inl => exact registersOk_resetEngine s
  case inr.inr.inr.inr.inr.inl => exact ⟨acceptedStatus_ok hstatus, hkeys, htrace⟩
  case inr.inr.inr.inr.inr.inr.inr => exact ⟨hstatus, nofun, htrace⟩
  all_goals exact ⟨hstatus, hkeys, htrace⟩

theorem OnlyBookkept.registersOk (hsu : OnlyBookkept s u) (h : RegistersOk s) : RegistersOk u := by
  obtain ⟨_, _, _, _, rfl⟩ := hsu
  exact h

/-! The RST input. -/

theorem inv_iff : Inv s ↔ RegistersOk s ∧ RstOk s := by simp only [Inv, RegistersOk, and_assoc]

/-- While RST is released the invariant says nothing of it. -/
theorem RegistersOk.inv (h : RegistersOk s) (hr : s.rst = false) : Inv s :=
  inv_iff.2 ⟨h, fun hrst => by rw [hr] at hrst; cases hrst⟩

theorem inv_resetEngine (s : State) : Inv (resetEngine s) :=
  inv_iff.2 ⟨registersOk_resetEngine s, fun _ => rfl⟩

/-- Reset() leaves what is no register of the engine, so a machine held in reset stays as RST wants it. -/
theorem OnlyBookkept.inv (hsu : OnlyBookkept s u) (h : Inv s) : Inv u := by
  obtain ⟨hregs, hrst⟩ := inv_iff.1 h
  refine inv_iff.2 ⟨hsu.registersOk hregs, ?_⟩
  obtain ⟨draws, ops, reads, turns, rfl⟩ := hsu
  exact fun hr => congrArg
    (fun x : State => { x with draws := draws, hostOps := ops, hostReads := reads, turns := turns }) (hrst hr)

/-- A command is in flight only while RST is released, since BUSY is 0 at reset. -/
theorem Inv.rst_of_busy (h : Inv s) (hb : s.status.busy = true) : s.rst = false := by
  obtain ⟨-, hrst⟩ := inv_iff.1 h
  refine Bool.eq_false_iff.2 fun hr => ?_
  rw [hrst hr] at hb
  cases hb

/-- Asserting RST resets; releasing it leaves the registers. -/
theorem Inv.rstTurn {level : Bool} (h : Inv s) (hturn : rstTurn level s = .next t) : Inv t := by
  cases level <;> cases hturn
  case true => exact inv_resetEngine _
  case false => exact RegistersOk.inv (inv_iff.1 h).1 rfl

/-- Settles O53: what a step can do to the registers keeps them as the invariant wants, and all but RST's own change happens
only while RST is released. -/
theorem everyStepKeepsTheInvariant : Obligations.EveryStepKeepsTheInvariant := by
  unfold Obligations.EveryStepKeepsTheInvariant
  intro s t hs hstep
  obtain ⟨u, hsu, hcase⟩ := step_register_cases hstep
  have hu : Inv u := hsu.inv hs
  obtain ⟨hregs, -⟩ := inv_iff.1 hu
  obtain rfl | ⟨hb, rfl | ⟨i, hexec⟩⟩ | ⟨hr, r, v, rfl⟩ | ⟨level, hrst⟩ := hcase
  · exact hu
  · exact (hregs.raiseCmdError (by decide)).inv (hu.rst_of_busy hb)
  · have hrst : t.rst = u.rst := by rw [exec_frame hexec]
    exact (hregs.exec hexec).inv (hrst.trans (hu.rst_of_busy hb))
  · exact (hregs.memWrite r v).inv ((memWrite_keeps_rst_and_sboxTable r v u).1.trans hr)
  · exact hu.rstTurn hrst

/-- Settles O52: the reset state is what Reset() makes of itself. -/
theorem invariantHoldsAtReset : Obligations.InvariantHoldsAtReset := inv_resetEngine State.reset

/-- Settles O54: no command, no write and neither source of reset changes the configured table. -/
theorem noStepChangesTheSboxTable : Obligations.NoStepChangesTheSboxTable := by
  unfold Obligations.NoStepChangesTheSboxTable
  intro s t hstep
  obtain ⟨u, ⟨_, _, _, _, rfl⟩, hcase⟩ := step_register_cases hstep
  obtain rfl | ⟨-, rfl | ⟨i, hexec⟩⟩ | ⟨-, r, v, rfl⟩ | ⟨level, hrst⟩ := hcase
  · rfl
  · rfl
  · rw [exec_frame hexec]
  · exact (memWrite_keeps_rst_and_sboxTable r v _).2
  · cases level <;> cases hrst <;> rfl

end Sys2Proof.Machine
end

section
/-! PROOF. While a command is in flight the Host changes flags and enables only, but by a reset (O51). -/

namespace Sys2Proof.Machine

variable {s : State}

/-- A write while BUSY = 1 that is no reset stores enables, clears flags, sets OVR, or does nothing. -/
theorem memWrite_of_busy {r : WindowReg} {v : Word} (hb : s.status.busy = true) (h : ¬ (r = .ctrl ∧ v.getLsbD 31 = true)) :
    ∃ ctrl done err ovr code,
      memWrite r v s = { s with
        ctrl := ctrl
        status := { s.status with done := done, err := err, ovr := ovr, errcode := code } } := by
  rcases memWrite_cases r v s with he | he | he | ⟨hr, hv, _⟩ | ⟨_, _, he⟩ | ⟨hidle, _⟩
  case inr.inr.inr.inl => exact absurd ⟨hr, hv⟩ h
  case inr.inr.inr.inr.inr => rw [hb] at hidle; cases hidle
  all_goals exact ⟨_, _, _, _, _, he⟩

/-- A write at an offset is a reset exactly where it reaches CTRL with bit 31. -/
theorem resets_wr_iff {off n : Nat} {v : Word} :
    (HostOp.wr off n v).resets = true ↔ regAt off = .ctrl ∧ v.getLsbD 31 = true := by
  simp [HostOp.resets, regAt_eq_ctrl]

/-- Settles O51: a read or a poll leaves every register, a write while BUSY = 1 leaves all but flags and enables, and the one
other write is the reset. -/
theorem hostCannotDisturbTheCommandInFlight : Obligations.HostCannotDisturbTheCommandInFlight := by
  unfold Obligations.HostCannotDisturbTheCommandInFlight
  intro s t hb hturn
  obtain ⟨⟨_, _, _, _, rfl⟩, hturns, hops⟩ | ⟨-, off, v, rest, hops, rfl⟩ := hostTurn_cases hturn
  · exact .inr ⟨hops, hb, rfl, rfl, rfl, rfl, rfl, rfl, rfl, rfl, rfl, rfl, rfl, hturns⟩
  · by_cases hreset : regAt off = .ctrl ∧ v.getLsbD 31 = true
    · obtain ⟨hctrl, hv⟩ := hreset
      obtain rfl := regAt_eq_ctrl.1 hctrl
      exact .inl ⟨v, rest, hops, hv, if_pos hv⟩
    · have hhead : ∀ op ∈ s.hostOps.head?, op.resets = false := by
        simpa [hops, ← Bool.not_eq_true, resets_wr_iff] using hreset
      obtain ⟨_, _, _, _, _, he⟩ := memWrite_of_busy (s := { s with hostOps := rest }) hb hreset
      rw [he]
      exact .inr ⟨hhead, hb, rfl, rfl, rfl, rfl, rfl, rfl, rfl, rfl, rfl, rfl, rfl, rfl⟩

end Sys2Proof.Machine
end

section
/-! PROOF. The registers one by one: RESULT (O16), the command in flight (O6), what ENC and DEC depend on (O37), the reset values
(O39), CTRL (O48) and the interrupt line (O49). -/

namespace Sys2Proof.Machine

variable {s u : State}

/-! RESULT. -/

theorem writesPlace_result_eq_false {i : Instr} (hs : ∀ a, i ≠ .sbox a) (hi : ∀ a, i ≠ .isbox a)
    (hg : ∀ a b, i ≠ .gfmul a b) : writesPlace i .result = false := by
  cases i with
  | sbox a => exact absurd rfl (hs a)
  | isbox a => exact absurd rfl (hi a)
  | gfmul a b => exact absurd rfl (hg a b)
  | nop | bsf | bsi | trn | kexp | subb | isubb | shrows | ishrows | mixcol | imixcol | ark | enc | dec => rfl

/-- Settles O16: RESULT is a byte, each query writes it, and it is no other command's destination. -/
theorem resultIsTheLastQuerysByte : Obligations.ResultIsTheLastQuerysByte := by
  unfold Obligations.ResultIsTheLastQuerysByte
  refine ⟨fun s t a h => ?sbox, fun s t a h => ?isbox, fun s t a b h => ?gfmul, fun s => ?high,
    fun i s t h hs hi hg => exec_keeps_result (writesPlace_result_eq_false hs hi hg) h⟩
  case sbox => rw [exec_sbox] at h; cases h; rfl
  case isbox => rw [exec_isbox] at h; cases h; rfl
  case gfmul => rw [exec_gfmul] at h; cases h; rfl
  case high =>
    show s.result.setWidth 32 >>> 8 = 0
    rw [← BitVec.setWidth_ushiftRight (by decide), BitVec.ushiftRight_eq_zero (by decide)]
    rfl

/-! The command in flight. -/

/-- A placed word is in flight and the Engine is next, whatever was scheduled before. -/
theorem engineIsNext_placeCommand (hs : sboxBijective s.sboxTable = true) (c : Word) :
    EngineIsNext (placeCommand c s) (placeCommand c s) :=
  ⟨hs, .inr rfl, rfl, rfl⟩

theorem withFetchWord_toNat (s : State) (c : Word) : s.withFetchWord 32 c.toNat = placeCommand c s := by
  rw [State.withFetchWord, Nat.mod_eq_of_lt c.isLt, BitVec.ofNat_toNat, BitVec.setWidth_eq]

/-- With the Engine to move on a word that decodes, a step is the command's meaning. -/
theorem step_eq_exec {i : Instr} (h : EngineIsNext s u) (hi : decode s.cmd = .ok i) : step s = exec i u := by
  have hcmd : u.cmd = s.cmd := by
    obtain ⟨-, -, -, rfl⟩ := h
    rfl
  rw [step_of_engineIsNext h, engineStep_ok (hcmd ▸ hi)]

/-- Settles O6: both clauses are `step_eq_exec`, the second where the word has just been placed. -/
theorem stepRunsTheCommandInFlight : Obligations.StepRunsTheCommandInFlight := by
  unfold Obligations.StepRunsTheCommandInFlight
  refine ⟨fun s u i => step_eq_exec, fun s c i hs hi => ?_⟩
  rw [withFetchWord_toNat]
  exact step_eq_exec (engineIsNext_placeCommand hs c) hi

/-! ENC and DEC. -/

/-- Settles O37: the pipeline's result is made of STATE, KEY and the configured table alone. -/
theorem pipelinesDependOnlyOnStateAndKey : Obligations.PipelinesDependOnlyOnStateAndKey := by
  unfold Obligations.PipelinesDependOnlyOnStateAndKey
  intro i s s' hi hstate hkey htable
  have hexec : ∃ d, ∀ x, exec i x = .next (pipelineResult d x) := by
    rcases hi with rfl | rfl
    · exact ⟨.enc, exec_enc⟩
    · exact ⟨.dec, exec_dec⟩
  obtain ⟨d, hexec⟩ := hexec
  refine ⟨_, _, hexec s, hexec s', ?_⟩
  simp only [pipelineResult_eq, hstate, hkey, htable, and_self]

/-! Reset. -/

/-- Settles O39: each register of `State.reset` is the value written there, read byte by byte. -/
theorem resetLeavesEveryRegisterZero : Obligations.ResetLeavesEveryRegisterZero := by
  unfold Obligations.ResetLeavesEveryRegisterZero
  refine ⟨rfl, rfl, rfl, rfl, rfl, rfl, rfl, rfl, rfl, by decide, by decide, rfl, rfl, fun p => ?state, fun j => ?key, fun i => ?w,
    fun n => ?trace⟩
  case state => simp [State.reset, zeroBlock]
  case key => simp [State.reset]
  case w => simp [State.reset]
  case trace => simp [State.reset, emptyEntry, zeroBlock]

/-! CTRL and the interrupt line. -/

/-- The bits of CTRL above its two enables read 0. -/
theorem ctrlWord_ushiftRight_two (c : Ctrl) : ctrlWord c >>> 2 = 0 := by
  obtain ⟨doneie, errie⟩ := c
  cases doneie <;> cases errie <;> decide

/-- What a CTRL write stores reads back as the word's bits 1:0. -/
theorem ctrlWord_ctrlOfWord (v : Word) : ctrlWord (ctrlOfWord v) = v &&& 3 := by
  refine BitVec.eq_of_getLsbD_eq fun i hi => ?_
  simp only [ctrlWord, ctrlOfWord, BitVec.getLsbD_append, BitVec.getLsbD_and, BitVec.getLsbD_ofBool, BitVec.getLsbD_zero]
  obtain rfl | rfl | h : i = 0 ∨ i = 1 ∨ 2 ≤ i := by omega
  · simp
  · simp
  · have hthree : (3#32).getLsbD i = false := by revert i; decide
    simp [hthree, show ¬ i < 1 by omega, show ¬ i - 1 < 1 by omega]

theorem irq_iff (s : State) :
    irq s = true ↔ (s.status.done = true ∧ s.ctrl.doneie = true) ∨ (s.status.err = true ∧ s.ctrl.errie = true) := by
  simp [irq]

/-- A CTRL write without bit 31 stores the two enables. -/
theorem memWrite_ctrl_enables {v : Word} (hv : v.getLsbD 31 = false) (s : State) :
    memWrite .ctrl v s = { s with ctrl := ctrlOfWord v } :=
  if_neg (Bool.eq_false_iff.1 hv)

/-- Settles O48: the write of CTRL asks for bit 31 alone, never for BUSY. -/
theorem ctrlWriteEnablesOrResets : Obligations.CtrlWriteEnablesOrResets := by
  unfold Obligations.CtrlWriteEnablesOrResets
  refine ⟨fun s u v h hr => ⟨_, step_of_write h hr (by decide) (by decide), fun hv => ?reset, fun hv => ?enables⟩,
    fun s => ⟨ctrlWord_ushiftRight_two s.ctrl, rfl⟩,
    fun s => ⟨fun hie hdone => (irq_iff s).2 (.inl ⟨hdone, hie⟩), fun hie herr => (irq_iff s).2 (.inr ⟨herr, hie⟩)⟩⟩
  case reset =>
    have ht : memWrite (regAt 0x008) v u = resetEngine u := if_pos hv
    rw [ht]
    exact ⟨rfl, (by decide : ctrlWord State.reset.ctrl = 0)⟩
  case enables =>
    rw [regAt_ctrl, memWrite_ctrl_enables hv]
    exact ⟨rfl, rfl, rfl, ctrlWord_ctrlOfWord v⟩

/-- Settles O49: each clause by what its operation does to DONE, ERR and the two enables. -/
theorem irqFollowsPendingAndEnable : Obligations.IrqFollowsPendingAndEnable := by
  unfold Obligations.IrqFollowsPendingAndEnable
  refine ⟨fun i s t h hie => ?completion, fun s v hdone herr => ?cleared, fun s v hv => ?enabled,
    fun s v hbusy hie => ?accepted⟩
  case completion =>
    have hctrl : t.ctrl = s.ctrl := by rw [exec_frame h]
    exact (irq_iff t).2 (.inl ⟨(exec_completes h).2, hctrl ▸ hie⟩)
  case cleared => simp [irq, memWrite, clearStatusBits, hdone, herr]
  case enabled =>
    rw [memWrite_ctrl_enables hv]
    exact irq_iff _
  case accepted => simp [irq, memWrite, hbusy, hie]

end Sys2Proof.Machine
end

section
/-! PROOF. A command leaves every word of the window outside its destinations (O11). -/

namespace Sys2Proof.Machine

variable {i : Instr} {r : WindowReg} {s t : State}

/-- A command whose destinations do not include STATE leaves it. -/
theorem exec_keeps_state {c : Fin 4} (hi : writesPlace i (.state c) = false) (h : exec i s = .next t) :
    t.state = s.state := by
  rcases exec_cases i s with ⟨_, _, _, _, he⟩ | he | ⟨_, _, he⟩ | ⟨_, hwrites, _⟩ | ⟨_, he⟩ | ⟨_, rfl | rfl, _⟩
  case inr.inr.inr.inl => rw [hwrites c] at hi; cases hi
  case inr.inr.inr.inr.inr.inl | inr.inr.inr.inr.inr.inr => cases hi
  all_goals rw [he] at h; cases h; rfl

/-- A command whose destinations do not include W leaves it. -/
theorem exec_keeps_w {k : Fin 60} (hi : writesPlace i (.w k) = false) (h : exec i s = .next t) : t.w = s.w := by
  rcases exec_cases i s with ⟨_, _, _, _, he⟩ | he | ⟨_, _, he⟩ | ⟨_, _, he⟩ | ⟨rfl, _⟩ | ⟨_, rfl | rfl, _⟩
  case inr.inr.inr.inr.inl | inr.inr.inr.inr.inr.inl | inr.inr.inr.inr.inr.inr => cases hi
  all_goals rw [he] at h; cases h; rfl

/-- A command whose destinations do not include TRACE leaves it, and TCOUNT, which says how many entries are read. -/
theorem exec_keeps_trace {n : Fin 60} {o : Fin 16} (hi : writesPlace i (.trace n o) = false) (h : exec i s = .next t) :
    t.trace = s.trace ∧ t.status.tcount = s.status.tcount := by
  rcases exec_cases i s with ⟨_, _, _, _, he⟩ | he | ⟨_, _, he⟩ | ⟨_, _, he⟩ | ⟨_, he⟩ | ⟨_, rfl | rfl, _⟩
  case inr.inr.inr.inr.inr.inl | inr.inr.inr.inr.inr.inr => cases hi
  all_goals rw [he] at h; cases h; exact ⟨rfl, rfl⟩

/-- A command leaves the word at every place that is none of its destinations. -/
theorem exec_keeps_heldWord (hi : writesPlace i r = false) (h : exec i s = .next t) : heldWord t r = heldWord s r := by
  cases r with
  | status => cases hi
  | cmd | ctrl | key | reserved => rw [exec_frame h]; rfl
  | result => simp only [heldWord, exec_keeps_result hi h]
  | state c => simp only [heldWord, exec_keeps_state hi h]
  | w k => simp only [heldWord, exec_keeps_w hi h]
  | trace n o => simp only [heldWord, exec_keeps_trace hi h]

/-- Settles O11: the frame holds at every place, so at the place of every offset. -/
theorem commandsChangeOnlyTheirPlaces : Obligations.CommandsChangeOnlyTheirPlaces := by
  unfold Obligations.CommandsChangeOnlyTheirPlaces
  exact fun i s t off h hi => exec_keeps_heldWord hi h

end Sys2Proof.Machine
end

section
/-! PROOF. The Host's writes, place by place (O42, O45, O46 and O47), and its accesses that are not defined (O44). -/

namespace Sys2Proof.Machine

variable {s u : State} {off n : Nat} {v : Word}

/-- An aligned offset in an array of m words from `base` on is the offset of one of them. -/
theorem exists_wordIndex (off base m : Nat) (hlo : base ≤ off) (hhi : off < base + 4 * m) (ha : (off - base) % 4 = 0) :
    ∃ i : Fin m, off = base + 4 * i.val :=
  ⟨⟨(off - base) / 4, by omega⟩, by show off = base + 4 * ((off - base) / 4); omega⟩

/-! The operation of each place. `memWrite_ctrl_enables` is the one of CTRL without bit 31. -/

theorem memWrite_cmd_idle (hb : s.status.busy = false) : memWrite .cmd v s = acceptCommand v s := by
  simp [memWrite, hb]

theorem memWrite_status : memWrite .status v s = writeStatus v s := rfl

theorem memWrite_ctrl_reset (hv : v.getLsbD 31 = true) : memWrite .ctrl v s = resetEngine s := if_pos hv

theorem memWrite_state_idle (c : Fin 4) (hb : s.status.busy = false) :
    memWrite (.state c) v s = { s with state := setColumn s.state c v } := by
  simp [memWrite, hb]

theorem memWrite_key_idle (k : Fin 8) (hb : s.status.busy = false) :
    memWrite (.key k) v s =
      { s with key := setKeyWord s.key k v, status := { s.status with rkvalid := false } } := by
  simp [memWrite, hb]

/-- While BUSY = 1 a write to CMD, STATE or KEY is discarded. -/
theorem memWrite_operand_busy (ha : off % 4 = 0) (h : off = 0x000 ∨ (0x010 ≤ off ∧ off < 0x040))
    (hb : s.status.busy = true) : memWrite (regAt off) v s = discardWrite s := by
  obtain rfl | h | h : off = 0x000 ∨ (0x010 ≤ off ∧ off < 0x020) ∨ (0x020 ≤ off ∧ off < 0x040) := by omega
  · simp [memWrite, hb]
  · obtain ⟨c, rfl⟩ := exists_wordIndex off 0x010 4 (by omega) (by omega) (by omega)
    simp [regAt_state, memWrite, hb]
  · obtain ⟨k, rfl⟩ := exists_wordIndex off 0x020 8 (by omega) (by omega) (by omega)
    simp [regAt_key, memWrite, hb]

/-- RESULT and every offset past KEY are read-only or reserved. -/
theorem memWrite_ignored (h : off = 0x00C ∨ 0x040 ≤ off) : memWrite (regAt off) v s = s := by
  obtain rfl | h := h
  · rfl
  · simp only [regAt]
    rw [if_neg (by omega), if_neg (by omega), if_neg (by omega), if_neg (by omega), dif_neg (by omega), dif_neg (by omega)]
    split
    · rfl
    · split <;> rfl

/-! The bytes that a write replaces. -/

theorem getElem_setColumn (b : Block) (c : Fin 4) (v : Word) (p : Fin 16) :
    (setColumn b c v)[p] = if p.val / 4 = c.val then wordByte v (p.val % 4) else b[p] :=
  Vector.getElem_ofFn p.isLt

theorem getElem_setKeyWord (key : Key) (k : Fin 8) (v : Word) (j : Fin 32) :
    (setKeyWord key k v)[j] = if j.val / 4 = k.val then wordByte v (j.val % 4) else key[j] :=
  Vector.getElem_ofFn j.isLt

/-- Byte j of the KEY word just written. -/
theorem getElem_setKeyWord_same (key : Key) (k : Fin 8) (v : Word) (j : Fin 4) :
    (setKeyWord key k v)[4 * k.val + j.val] = wordByte v j.val := by
  refine (getElem_setKeyWord key k v ⟨4 * k.val + j.val, by omega⟩).trans ?_
  rw [if_pos (by show (4 * k.val + j.val) / 4 = k.val; omega), show (4 * k.val + j.val) % 4 = j.val by omega]

/-! The obligations. -/

/-- Settles O42: each clause is the operation of the place that its offset names. -/
theorem hostWriteByOffset : Obligations.HostWriteByOffset := by
  unfold Obligations.HostWriteByOffset
  intro s u off v h hr ho ha
  refine ⟨_, step_of_write h hr ho ha, fun hoff hb => ?cmd_busy, ?cmd_idle, ?status, ?reset, ?enables, fun c hoff => ?state,
    fun k hoff => ?key, fun hoff => memWrite_ignored hoff⟩
  case cmd_busy => exact memWrite_operand_busy ha (.inl hoff) hb
  case cmd_idle => rintro rfl hb; exact memWrite_cmd_idle hb
  case status => rintro rfl; exact memWrite_status
  case reset => rintro rfl hv; exact memWrite_ctrl_reset hv
  case enables => rintro rfl hv; exact memWrite_ctrl_enables hv u
  case state =>
    refine ⟨memWrite_operand_busy ha (.inr (by omega)), fun hb => ?_⟩
    rw [hoff, regAt_state, memWrite_state_idle c hb]
    exact ⟨rfl, getElem_setColumn u.state c v⟩
  case key =>
    refine ⟨memWrite_operand_busy ha (.inr (by omega)), fun hb => ?_⟩
    rw [hoff, regAt_key, memWrite_key_idle k hb]
    exact ⟨rfl, getElem_setKeyWord u.key k v⟩

/-- Settles O45: the write is `acceptCommand`, which decodes nothing. -/
theorem cmdWriteIsAcceptedWhileIdle : Obligations.CmdWriteIsAcceptedWhileIdle := by
  unfold Obligations.CmdWriteIsAcceptedWhileIdle
  intro s u v h hr hb
  have hstep := step_of_write h hr (by decide) (by decide)
  rw [regAt_cmd, memWrite_cmd_idle hb] at hstep
  exact ⟨_, hstep, rfl, rfl, rfl, rfl, rfl, rfl, rfl⟩

/-- Settles O46: the write clears RKVALID, for which ARK asks before it uses W. -/
theorem keyWriteInvalidatesTheRoundKeys : Obligations.KeyWriteInvalidatesTheRoundKeys := by
  unfold Obligations.KeyWriteInvalidatesTheRoundKeys
  intro s u k v h hr hb
  have hstep := step_of_write h hr (by rw [windowSize]; omega) (by omega)
  rw [regAt_key, memWrite_key_idle k hb] at hstep
  exact ⟨_, hstep, rfl, rfl, getElem_setKeyWord_same u.key k v, fun r hlt => ⟨_, exec_ark_noKey _ hlt rfl, rfl⟩⟩

/-- Settles O47: CMD, STATE and KEY alone ask for BUSY. -/
theorem writesWhileBusyAreDiscarded : Obligations.WritesWhileBusyAreDiscarded := by
  unfold Obligations.WritesWhileBusyAreDiscarded
  intro s u off v h hr hb
  refine ⟨fun ha hoff => ?operand, ?status, ?enables, ?reset⟩
  case operand =>
    rw [step_of_write h hr (by rw [windowSize]; omega) ha, memWrite_operand_busy ha hoff hb]
    rfl
  case status =>
    rintro rfl
    exact step_of_write h hr (by decide) (by decide)
  case enables =>
    rintro rfl hv
    rw [step_of_write h hr (by decide) (by decide), regAt_ctrl, memWrite_ctrl_enables hv]
  case reset =>
    rintro rfl hv
    rw [step_of_write h hr (by decide) (by decide), regAt_ctrl, memWrite_ctrl_reset hv]

/-- An access of another width or misaligned is none of the defined ones. -/
theorem accessDefined_eq_false (h : n ≠ 4 ∨ off % 4 ≠ 0) : accessDefined off n = false := by
  simpa [accessDefined, imp_iff_not_or] using h

/-- Settles O44: the Host's step looks at width and alignment before it reads or writes. -/
theorem undefinedAccessesGetBusError : Obligations.UndefinedAccessesGetBusError := by
  unfold Obligations.UndefinedAccessesGetBusError
  refine ⟨fun s u off n h ho hn => ?read, fun s u off n v h ho hn => ?write⟩
  all_goals
    have hin : ¬ windowSize ≤ off := Nat.not_le.2 ho
    simp [step_of_hostIsNext h, hostAccess, hin, accessDefined_eq_false hn]

end Sys2Proof.Machine
end

section
/-! PROOF. What the Host's reads return, place by place, and that they change nothing (O43, O50 and O58). -/

namespace Sys2Proof.Machine

variable {s : State} {r : WindowReg} {off i k m : Nat}

/-! The bits and fields of a read: those outside `drawMask` are held whatever BUSY is, those inside are drawn while BUSY = 1. -/

theorem memRead_getLsbD_held (hm : (drawMask r).getLsbD i = false) :
    (memRead r s).1.getLsbD i = (heldWord s r).getLsbD i := by
  unfold memRead
  split
  · simp only [BitVec.getLsbD_or, BitVec.getLsbD_and, BitVec.getLsbD_not, hm]
    by_cases hi : i < 32
    · simp [hi]
    · simp [BitVec.getLsbD_of_ge _ i (Nat.not_lt.1 hi)]
  · rfl

theorem memRead_getLsbD_drawn (hb : s.status.busy = true) (hm : (drawMask r).getLsbD i = true) :
    (memRead r s).1.getLsbD i = (Config.draw s.draws).getLsbD i := by
  have hne : drawMask r ≠ 0 := fun h0 => by simp [h0] at hm
  simp only [memRead_draw hb hne, BitVec.getLsbD_or, BitVec.getLsbD_and, BitVec.getLsbD_not, hm]
  simp

theorem memRead_extractLsb'_held (hm : (drawMask r).extractLsb' k m = 0) :
    (memRead r s).1.extractLsb' k m = (heldWord s r).extractLsb' k m := by
  refine BitVec.eq_of_getLsbD_eq fun i hi => ?_
  have hbit : (drawMask r).getLsbD (k + i) = false := by
    simpa [hi] using congrArg (BitVec.getLsbD · i) hm
  simp only [BitVec.getLsbD_extractLsb', memRead_getLsbD_held hbit]

theorem memRead_extractLsb'_drawn (hb : s.status.busy = true) (hm : (drawMask r).extractLsb' k m = BitVec.allOnes m) :
    (memRead r s).1.extractLsb' k m = (Config.draw s.draws).extractLsb' k m := by
  refine BitVec.eq_of_getLsbD_eq fun i hi => ?_
  have hbit : (drawMask r).getLsbD (k + i) = true := by
    simpa [hi] using congrArg (BitVec.getLsbD · i) hm
  simp only [BitVec.getLsbD_extractLsb', memRead_getLsbD_drawn hb hbit]

/-- A place of which every bit is a draw while BUSY = 1. -/
theorem memRead_allDrawn (hb : s.status.busy = true) (hm : drawMask r = BitVec.allOnes 32) :
    memRead r s = (Config.draw s.draws, { s with draws := s.draws + 1 }) := by
  rw [memRead_draw hb (by rw [hm]; decide), hm, BitVec.not_allOnes, BitVec.and_zero, BitVec.zero_or, BitVec.and_allOnes]

/-! The fields of the words that are held. -/

theorem statusWord_fields (st : Status) :
    (statusWord st).extractLsb' 24 8 = 0#8 ∧ (statusWord st).extractLsb' 16 8 = st.tcount ∧
    (statusWord st).extractLsb' 12 4 = 0#4 ∧ (statusWord st).extractLsb' 8 4 = st.errcode.code ∧
    (statusWord st).extractLsb' 6 2 = 0#2 := by
  simp (disch := decide) only [statusWord, BitVec.extractLsb'_append_eq_of_le, BitVec.extractLsb'_append_eq_of_add_le,
    BitVec.extractLsb'_eq_self, Nat.reduceSub, and_self]

theorem statusWord_flags (st : Status) :
    (statusWord st).getLsbD 5 = decide (st.tdir = .dec) ∧ (statusWord st).getLsbD 4 = st.rkvalid ∧
    (statusWord st).getLsbD 3 = st.ovr ∧ (statusWord st).getLsbD 2 = st.err ∧
    (statusWord st).getLsbD 1 = st.done ∧ (statusWord st).getLsbD 0 = st.busy := by
  have htdir : st.tdir.bit[0] = decide (st.tdir = .dec) := by cases st.tdir <;> rfl
  simp only [statusWord, BitVec.getLsbD_append]
  simp [htdir]

theorem ctrlWord_flags (c : Ctrl) : (ctrlWord c).getLsbD 1 = c.errie ∧ (ctrlWord c).getLsbD 0 = c.doneie := by
  obtain ⟨doneie, errie⟩ := c
  cases doneie <;> cases errie <;> decide

theorem descriptorWord_fields (e : TraceEntry) :
    (descriptorWord e).extractLsb' 13 19 = 0#19 ∧ (descriptorWord e).getLsbD 12 = e.hasrk ∧
    (descriptorWord e).extractLsb' 8 4 = e.round ∧ (descriptorWord e).extractLsb' 0 8 = e.kind.code := by
  simp (disch := decide) only [descriptorWord, BitVec.extractLsb'_append_eq_of_le,
    BitVec.extractLsb'_append_eq_of_add_le, BitVec.extractLsb'_eq_self, Nat.reduceSub, BitVec.getLsbD_append]
  simp

theorem wordByte_columnWord (b : Block) (c j : Fin 4) : wordByte (columnWord b c) j.val = b[4 * c.val + j.val] := by
  have hrc : b[4 * c.val + j.val] = Block.rc b j c := by simp only [rc_eq_getElem, Nat.add_comm]
  obtain ⟨h0, h1, h2, h3⟩ := wordByte_wordOfBytes (Block.rc b 0 c) (Block.rc b 1 c) (Block.rc b 2 c) (Block.rc b 3 c)
  rw [hrc]
  match j with
  | 0 => exact h0
  | 1 => exact h1
  | 2 => exact h2
  | 3 => exact h3

theorem wordByte_keyWord (key : Key) (k : Fin 8) (j : Fin 4) :
    wordByte (keyWord key k) j.val = key[4 * k.val + j.val] := by
  obtain ⟨h0, h1, h2, h3⟩ :=
    wordByte_wordOfBytes key[4 * k.val] key[4 * k.val + 1] key[4 * k.val + 2] key[4 * k.val + 3]
  match j with
  | 0 => exact h0
  | 1 => exact h1
  | 2 => exact h2
  | 3 => exact h3

/-! Trace entries. -/

theorem traceWord_s (e : TraceEntry) (c : Fin 4) :
    traceWord e ⟨(0x10 + 4 * c.val) / 4, by omega⟩ = columnWord e.s c := by
  match c with
  | 0 | 1 | 2 | 3 => rfl

theorem traceWord_k (e : TraceEntry) (c : Fin 4) :
    traceWord e ⟨(0x20 + 4 * c.val) / 4, by omega⟩ = columnWord e.k c := by
  match c with
  | 0 | 1 | 2 | 3 => rfl

/-- An entry n >= TCOUNT of the trace holds 0, whatever was written to it. -/
theorem heldWord_trace_invalid {n : Fin 60} (o : Fin 16) (h : s.status.tcount.toNat ≤ n.val) :
    heldWord s (.trace n o) = 0 := if_pos h

theorem heldWord_trace_valid {n : Fin 60} (o : Fin 16) (h : n.val < s.status.tcount.toNat) :
    heldWord s (.trace n o) = traceWord s.trace[n] o := if_neg (Nat.not_le.2 h)

/-! What the offsets name. -/

/-- The reserved words of trace entry n, from 0x04 to 0x0C and from 0x30 to 0x3C. -/
theorem memRead_trace_reserved_offset (n : Fin 60) (h : (4 ≤ m ∧ m < 0x10) ∨ (0x30 ≤ m ∧ m < 0x40)) :
    memRead (regAt (0x1000 + 64 * n.val + m)) s = (0, s) := by
  rw [regAt_trace n m (by omega)]
  exact memRead_trace_reserved n s (decide_eq_false (by show ¬ (m / 4 = 0 ∨ (4 ≤ m / 4 ∧ m / 4 < 12)); omega))

theorem memRead_reserved_offset (h : (0x040 ≤ off ∧ off < 0x100) ∨ (0x1F0 ≤ off ∧ off < 0x1000) ∨ 0x1F00 ≤ off) :
    memRead (regAt off) s = (0, s) := by
  rw [regAt_reserved h]
  exact memRead_held (.inr rfl)

/-- RESULT, STATE, W and the words that trace entries hold are draws in all their bits. -/
theorem drawMask_allOnes (ha : off % 4 = 0)
    (h : off = 0x00C ∨ (0x010 ≤ off ∧ off < 0x020) ∨ (0x100 ≤ off ∧ off < 0x1F0) ∨
      ∃ (n : Fin 60) (o : Nat), off = 0x1000 + 64 * n.val + o ∧ (o = 0 ∨ (0x10 ≤ o ∧ o < 0x30))) :
    drawMask (regAt off) = BitVec.allOnes 32 := by
  obtain rfl | h | h | ⟨n, o, rfl, ho⟩ := h
  · rfl
  · obtain ⟨c, rfl⟩ := exists_wordIndex off 0x010 4 (by omega) (by omega) (by omega)
    rw [regAt_state]; rfl
  · obtain ⟨i, rfl⟩ := exists_wordIndex off 0x100 60 (by omega) (by omega) (by omega)
    rw [regAt_w]; rfl
  · rw [regAt_trace n o (by omega)]
    exact if_pos (decide_eq_true (by show o / 4 = 0 ∨ (4 ≤ o / 4 ∧ o / 4 < 12); omega))

/-! The obligations. -/

/-- Settles O50: a read returns a state that differs in the count of draws alone, on which no held word depends. -/
theorem readsHaveNoSideEffect : Obligations.ReadsHaveNoSideEffect := by
  unfold Obligations.ReadsHaveNoSideEffect
  refine fun r r' s => ⟨memRead_state r s, ?_, fun hb => ?_, fun hm => ?_⟩
  · rw [memRead_state, heldWord_draws]
  · rw [memRead_held (.inl hb), memRead_held (.inl hb)]
  · rw [memRead_held (.inr hm), memRead_held (.inr hm)]
    exact ⟨rfl, rfl⟩

/-- Settles O58: a reserved place holds 0 and is no draw, and `memWrite` leaves it as it leaves what is read-only. -/
theorem reservedOffsetsReadZeroAndIgnoreWrites : Obligations.ReservedOffsetsReadZeroAndIgnoreWrites := by
  unfold Obligations.ReservedOffsetsReadZeroAndIgnoreWrites
  refine ⟨fun s u off h hr ho ha hoff => ?read, fun s u off v h hr ho ha hoff => ?write⟩
  case read =>
    have hread : memRead (regAt off) u = (0, u) := by
      obtain hoff | hoff | hoff | ⟨n, hoff⟩ := hoff
      · exact memRead_reserved_offset (.inl hoff)
      · exact memRead_reserved_offset (.inr (.inl hoff))
      · exact memRead_reserved_offset (.inr (.inr hoff))
      · obtain ⟨m, rfl⟩ : ∃ m, off = 0x1000 + 64 * n.val + m := Nat.exists_eq_add_of_le (by omega)
        exact memRead_trace_reserved_offset n (by omega)
    rw [step_of_read h hr ho ha, hread]
  case write => rw [step_of_write h hr ho ha, memWrite_ignored hoff]

/-- Settles O43: each clause is what the place of its offset holds or draws. -/
theorem hostReadByOffset : Obligations.HostReadByOffset := by
  unfold Obligations.HostReadByOffset
  intro s u off h hr ho ha
  refine ⟨_, (memRead (regAt off) u).1, step_of_read h hr ho ha, ?frame, fun hb => ?idle, ?cmd, ?status, ?ctrl,
    fun k hoff => ?key, fun hoff hb => ?drawn, ?result, fun c hoff hb j => ?state, fun i hoff hb => ?w,
    fun n o hoff ho64 hb => ?trace, fun n o hoff hres => ?traceReserved, fun hres => ?reserved⟩
  case frame => rw [memRead_state]
  case idle => rw [memRead_held (.inl hb)]
  case cmd => rintro rfl; rw [regAt_cmd, memRead_held (.inr rfl)]; exact ⟨rfl, rfl⟩
  case status =>
    rintro rfl
    rw [regAt_status]
    obtain ⟨h24, h16, h12, h8, h6⟩ := statusWord_fields u.status
    obtain ⟨h5, h4, h3, h2, h1, h0⟩ := statusWord_flags u.status
    refine ⟨(memRead_extractLsb'_held rfl).trans h24, (memRead_extractLsb'_held rfl).trans h12,
      (memRead_extractLsb'_held rfl).trans h6, (memRead_extractLsb'_held rfl).trans h8,
      (memRead_getLsbD_held rfl).trans h3, (memRead_getLsbD_held rfl).trans h2, (memRead_getLsbD_held rfl).trans h1,
      (memRead_getLsbD_held rfl).trans h0, fun hb => ?_, fun hb => ?_⟩
    · rw [memRead_held (.inl hb)]
      exact ⟨h16, h5, h4⟩
    · refine ⟨?_, memRead_extractLsb'_drawn hb rfl, memRead_getLsbD_drawn hb rfl, memRead_getLsbD_drawn hb rfl⟩
      rw [memRead_draw hb (by decide)]
  case ctrl =>
    rintro rfl
    rw [regAt_ctrl, memRead_held (.inr rfl)]
    obtain ⟨h1, h0⟩ := ctrlWord_flags u.ctrl
    exact ⟨ctrlWord_ushiftRight_two u.ctrl, h1, h0, rfl⟩
  case key =>
    rw [hoff, regAt_key, memRead_held (.inr rfl)]
    exact ⟨rfl, wordByte_keyWord u.key k⟩
  case drawn => rw [memRead_allDrawn hb (drawMask_allOnes ha hoff)]; exact ⟨rfl, rfl⟩
  case result => rintro rfl hb; rw [memRead_held (.inl hb)]; rfl
  case state => rw [hoff, regAt_state, memRead_held (.inl hb)]; exact wordByte_columnWord u.state c j
  case w => rw [hoff, regAt_w, memRead_held (.inl hb)]; rfl
  case trace =>
    rw [hoff, regAt_trace n o ho64, memRead_held (.inl hb)]
    refine ⟨heldWord_trace_invalid _, fun hvalid => ?_⟩
    rw [heldWord_trace_valid _ hvalid]
    refine ⟨?descriptor, fun c => ?entryS, fun c => ?entryK⟩
    case descriptor => rintro rfl; exact descriptorWord_fields u.trace[n]
    case entryS => rintro rfl; rw [traceWord_s]; exact wordByte_columnWord u.trace[n].s c
    case entryK => rintro rfl; rw [traceWord_k]; exact wordByte_columnWord u.trace[n].k c
  case traceReserved => rw [hoff, memRead_trace_reserved_offset n hres]; exact ⟨rfl, rfl⟩
  case reserved => rw [memRead_reserved_offset hres]; exact ⟨rfl, rfl⟩

end Sys2Proof.Machine
end

section
/-! PROOF. A safe state's step has a next state, which is safe (O55). -/

namespace Sys2Proof.Machine

variable {s t : State} {i : Instr} {op : HostOp}

/-! Safety asks for the configuration, the Host's program, the RST level and the schedule alone. -/

/-- What is left of a safe state's program and schedule is safe. -/
theorem Safe.of_subset (h : Safe s) (htable : t.sboxTable = s.sboxTable) (hops : t.hostOps ⊆ s.hostOps)
    (hrst : t.rst = s.rst) (hturns : t.turns ⊆ s.turns) : Safe t := by
  obtain ⟨hs, hlegal, hr, hnoReset⟩ := h
  exact ⟨htable ▸ hs, fun op hop => hlegal op (hops hop), hrst.trans hr, fun hmem => hnoReset (hturns hmem)⟩

theorem Safe.tail (h : Safe s) : Safe { s with turns := s.turns.tail } :=
  h.of_subset rfl (List.Subset.refl _) rfl (List.tail_subset _)

/-- The registers that a command writes are none of these. -/
theorem Safe.exec (h : Safe s) (hexec : exec i s = .next t) : Safe t := by
  rw [exec_frame hexec]
  exact h

theorem Safe.engineTurn_next (h : Safe s) : ∃ t, engineTurn s = .next t ∧ Safe t := by
  have hnext : ∃ t, engineTurn s = .next t := by
    unfold engineTurn
    split
    · obtain ⟨t, ht, -⟩ := engineStep_completes s
      exact ⟨t, ht⟩
    · exact ⟨s, rfl⟩
  obtain ⟨t, ht⟩ := hnext
  refine ⟨t, ht, ?_⟩
  obtain ⟨-, rfl⟩ | ⟨-, rfl⟩ | ⟨-, i, -, hexec⟩ := engineTurn_cases ht
  · exact h
  · exact h
  · exact h.exec hexec

/-! The Host. -/

/-- While RST is released, an access that the window defines is performed. -/
theorem hostAccess_next (hlegal : op.legal = true) (hr : s.rst = false) : ∃ t, hostAccess op s = .next t := by
  cases op with
  | wait => simp [hostAccess, hr]
  | rd off n | wr off n v =>
    obtain ⟨hoff, hdef⟩ : off < windowSize ∧ accessDefined off n = true := by simpa [HostOp.legal] using hlegal
    simp [hostAccess, hr, hdef, Nat.not_le.2 hoff]

/-- No write reaches the Host's program or the schedule, which Reset() leaves too. -/
theorem memWrite_keeps_hostOps_and_turns (r : WindowReg) (v : Word) (s : State) :
    (memWrite r v s).hostOps = s.hostOps ∧ (memWrite r v s).turns = s.turns := by
  rcases memWrite_cases r v s with h | h | h | ⟨_, _, h⟩ | ⟨_, _, h⟩ | ⟨_, h | ⟨_, h⟩ | ⟨_, h⟩⟩ <;>
    (rw [h]; exact ⟨rfl, rfl⟩)

/-- An access leaves safety's fields, but that a poll may put itself back. -/
theorem hostAccess_frame (h : hostAccess op s = .next t) :
    t.sboxTable = s.sboxTable ∧ t.hostOps ⊆ op :: s.hostOps ∧ t.rst = s.rst ∧ t.turns = s.turns := by
  obtain ⟨-, ⟨off, -, -, -, rfl⟩ | ⟨off, v, -, -, -, rfl⟩ | ⟨rfl, ops, hops, rfl⟩⟩ := hostAccess_cases h
  · rw [memRead_state]
    exact ⟨rfl, List.subset_cons_self .., rfl, rfl⟩
  · obtain ⟨hrst, htable⟩ := memWrite_keeps_rst_and_sboxTable (regAt off) v s
    obtain ⟨hops, hturns⟩ := memWrite_keeps_hostOps_and_turns (regAt off) v s
    exact ⟨htable, hops ▸ List.subset_cons_self .., hrst, hturns⟩
  · rw [memRead_state]
    refine ⟨rfl, ?_, rfl, rfl⟩
    obtain rfl | rfl := hops
    · exact List.subset_cons_self ..
    · exact List.Subset.refl _

theorem Safe.hostTurn_next (h : Safe s) : ∃ t, hostTurn s = .next t ∧ Safe t := by
  unfold hostTurn
  split
  next => exact ⟨s, rfl, h⟩
  next op rest hops =>
    obtain ⟨-, hlegal, hr, -⟩ := id h
    obtain ⟨t, ht⟩ := hostAccess_next (s := { s with hostOps := rest }) (hlegal op (by simp [hops])) hr
    obtain ⟨htable, hsub, hrst, hturns⟩ := hostAccess_frame ht
    exact ⟨t, ht, h.of_subset htable (hops ▸ hsub) hrst (hturns ▸ List.Subset.refl _)⟩

/-! The step. -/

/-- A change of RST that the schedule of a safe state names is its release. -/
theorem Safe.rstTurn_next (h : Safe s) : ∃ t, rstTurn false s = .next t ∧ Safe t := by
  obtain ⟨-, -, hr, -⟩ := id h
  exact ⟨_, rfl, h.of_subset rfl (List.Subset.refl _) hr.symm (List.Subset.refl _)⟩

/-- Settles O55: each agent's turn answers a safe next state, and the schedule never asserts RST. -/
theorem safeStatesStepToSafeStates : Obligations.SafeStatesStepToSafeStates := by
  unfold Obligations.SafeStatesStepToSafeStates
  intro s h
  obtain ⟨hs, -, -, hnoReset⟩ := id h
  have htail := h.tail
  unfold step runTurn
  rw [if_pos hs]
  split
  next =>
    split
    · exact h.engineTurn_next
    · exact h.hostTurn_next
  next ts ht => rw [ht] at htail; exact htail.engineTurn_next
  next ts ht => rw [ht] at htail; exact htail.hostTurn_next
  next level ts ht =>
    rw [ht] at htail
    cases level with
    | true => exact absurd (ht ▸ List.mem_cons_self) hnoReset
    | false => exact htail.rstTurn_next

end Sys2Proof.Machine
end

section
/-! PROOF. Decode and encode are inverse to each other on the legal words and the well-formed commands (O1 and O2), and the legal
words are those of the match and mask patterns (30_encoding.md rules R100, R103 and R104). -/

namespace Sys2Proof

open Laws.OpcodeField (fieldOP_encodeFields)

variable {c : Word} {i : Instr}

/-! The fields of a word made from fields, of a word's bitwise and, and a word from its fields. -/

theorem fieldR_encodeFields (b a : Byte) (r : BitVec 4) (op : Byte) : fieldR (encodeFields b a r op) = r := by
  unfold fieldR encodeFields
  rw [BitVec.extractLsb'_append_eq_of_le (by decide), BitVec.extractLsb'_append_eq_right]

theorem fieldRSV_encodeFields (b a : Byte) (r : BitVec 4) (op : Byte) : fieldRSV (encodeFields b a r op) = 0 := by
  unfold fieldRSV encodeFields
  iterate 2 rw [BitVec.extractLsb'_append_eq_of_le (by decide)]
  rw [BitVec.extractLsb'_append_eq_right]
  rfl

theorem fieldA_encodeFields (b a : Byte) (r : BitVec 4) (op : Byte) : fieldA (encodeFields b a r op) = a := by
  unfold fieldA encodeFields
  iterate 3 rw [BitVec.extractLsb'_append_eq_of_le (by decide)]
  rw [BitVec.extractLsb'_append_eq_right]

theorem fieldB_encodeFields (b a : Byte) (r : BitVec 4) (op : Byte) : fieldB (encodeFields b a r op) = b := by
  unfold fieldB encodeFields
  iterate 3 rw [BitVec.extractLsb'_append_eq_of_le (by decide)]
  rw [BitVec.extractLsb'_append_eq_left]

/-- The five fields cover the word. -/
theorem append_fields (c : Word) : fieldB c ++ fieldA c ++ fieldRSV c ++ fieldR c ++ fieldOP c = c := by
  unfold fieldB fieldA fieldRSV fieldR fieldOP
  iterate 4 rw [BitVec.extractLsb'_append_extractLsb'_eq_extractLsb' (by decide)]
  exact BitVec.extractLsb'_eq_self

theorem eq_encodeFields_iff {b a : Byte} {r : BitVec 4} {op : Byte} :
    c = encodeFields b a r op ↔ fieldB c = b ∧ fieldA c = a ∧ fieldRSV c = 0 ∧ fieldR c = r ∧ fieldOP c = op := by
  constructor
  · rintro rfl
    exact ⟨fieldB_encodeFields .., fieldA_encodeFields .., fieldRSV_encodeFields .., fieldR_encodeFields ..,
      fieldOP_encodeFields ..⟩
  · rintro ⟨rfl, rfl, hrsv, rfl, rfl⟩
    calc c = fieldB c ++ fieldA c ++ fieldRSV c ++ fieldR c ++ fieldOP c := (append_fields c).symm
      _ = encodeFields (fieldB c) (fieldA c) (fieldR c) (fieldOP c) := by rw [hrsv]; rfl

/-! The decoder. -/

/-- A word decodes when the three conditions of rule R104 hold, and then to the command of its opcode. -/
theorem decode_eq_ok_iff :
    decode c = .ok i ↔
      fieldOP c ≤ 0x10 ∧ fieldRSV c = 0 ∧ unusedFieldsZero c = true ∧ decodeOpcode c = .ok i := by
  unfold decode
  split
  next hop => exact iff_of_false nofun fun ⟨hle, _⟩ => BitVec.not_le.2 hop hle
  next hop =>
    split
    next hrsv => exact iff_of_false nofun fun ⟨_, hzero, _⟩ => hrsv hzero
    next hrsv =>
      split
      next hz => exact ⟨fun h => ⟨BitVec.not_lt.1 hop, not_not.1 hrsv, hz, h⟩, fun ⟨_, _, _, h⟩ => h⟩
      next hz => exact iff_of_false nofun fun ⟨_, _, hzero, _⟩ => hz hzero

/-- Every opcode of rule R103 has a command. -/
theorem exists_decodeOpcode_eq_ok (hop : fieldOP c ≤ 0x10) : ∃ i, decodeOpcode c = .ok i := by
  have hle : (fieldOP c).toNat ≤ 0x10 := hop
  unfold decodeOpcode
  generalize (fieldOP c).toNat = n at hle
  interval_cases n <;> exact ⟨_, rfl⟩

theorem unusedFieldsZero_iff :
    unusedFieldsZero c = true ↔
      (fieldR c ≠ 0 → fieldOP c = 0x0E) ∧
      (fieldA c ≠ 0 → fieldOP c = 0x01 ∨ fieldOP c = 0x02 ∨ fieldOP c = 0x03) ∧
      (fieldB c ≠ 0 → fieldOP c = 0x03) := by
  simp only [unusedFieldsZero, usesR, usesA, usesB, Bool.and_eq_true, Bool.or_eq_true, beq_iff_eq]
  tauto

/-- Rule R104: the words that decode. -/
theorem exists_decode_eq_ok_iff :
    (∃ i, decode c = .ok i) ↔
      fieldOP c ≤ 0x10 ∧ fieldRSV c = 0 ∧
      (fieldR c ≠ 0 → fieldOP c = 0x0E) ∧
      (fieldA c ≠ 0 → fieldOP c = 0x01 ∨ fieldOP c = 0x02 ∨ fieldOP c = 0x03) ∧
      (fieldB c ≠ 0 → fieldOP c = 0x03) := by
  rw [← unusedFieldsZero_iff]
  constructor
  · rintro ⟨i, h⟩
    obtain ⟨hop, hrsv, hz, -⟩ := decode_eq_ok_iff.1 h
    exact ⟨hop, hrsv, hz⟩
  · rintro ⟨hop, hrsv, hz⟩
    obtain ⟨i, hi⟩ := exists_decodeOpcode_eq_ok hop
    exact ⟨i, decode_eq_ok_iff.2 ⟨hop, hrsv, hz, hi⟩⟩

/-! Decode after encode. -/

theorem opcode_le (i : Instr) : opcode i ≤ 0x10 := by
  cases i <;> exact of_decide_eq_true rfl

/-- The opcode of each command, as `Laws.OpcodeField` says it constructor by constructor. -/
theorem fieldOP_encode (i : Instr) : fieldOP (encode i) = opcode i := by
  cases i <;> exact fieldOP_encodeFields ..

theorem fieldRSV_encode (i : Instr) : fieldRSV (encode i) = 0 := by
  cases i <;> exact fieldRSV_encodeFields ..

theorem unusedFieldsZero_encodeFields (b a : Byte) (r : BitVec 4) (op : Byte) :
    unusedFieldsZero (encodeFields b a r op) = ((usesR op || r == 0) && (usesA op || a == 0) && (usesB op || b == 0)) := by
  simp only [unusedFieldsZero, fieldOP_encodeFields, fieldR_encodeFields, fieldA_encodeFields, fieldB_encodeFields]

/-- The encoder puts an operand into the fields its opcode uses, and 0 into the others. -/
theorem unusedFieldsZero_encode (i : Instr) : unusedFieldsZero (encode i) = true := by
  cases i <;> exact unusedFieldsZero_encodeFields ..

theorem decodeOpcode_encode (h : i.wellFormed = true) : decodeOpcode (encode i) = .ok i := by
  unfold decodeOpcode
  rw [fieldOP_encode]
  cases i with
  | sbox a | isbox a => simp [opcode, encode, fieldA_encodeFields]
  | gfmul a b => simp [opcode, encode, fieldA_encodeFields, fieldB_encodeFields]
  | ark r =>
    have hr : r < 16 := of_decide_eq_true h
    simp [opcode, encode, fieldR_encodeFields, Nat.mod_eq_of_lt hr]
  | nop | bsf | bsi | trn | kexp | subb | isubb | shrows | ishrows | mixcol | imixcol | enc | dec => rfl

theorem decode_encode (h : i.wellFormed = true) : decode (encode i) = .ok i :=
  decode_eq_ok_iff.2 ⟨fieldOP_encode i ▸ opcode_le i, fieldRSV_encode i, unusedFieldsZero_encode i, decodeOpcode_encode h⟩

/-- Settles O1: the encoding meets the three conditions of rule R104, and each field gives back what was put into it. -/
theorem decodeOfEncodeIsTheCommand : Obligations.DecodeOfEncodeIsTheCommand := by
  unfold Obligations.DecodeOfEncodeIsTheCommand
  exact fun i => decode_encode

/-! Encode after decode. -/

/-- A command decoded from its opcode is well formed, and its encoding has the word's opcode, the fields the opcode uses, and 0
elsewhere. -/
theorem encode_of_decodeOpcode (h : decodeOpcode c = .ok i) :
    i.wellFormed = true ∧
    encode i =
      encodeFields (if usesB (fieldOP c) then fieldB c else 0) (if usesA (fieldOP c) then fieldA c else 0)
        (if usesR (fieldOP c) then fieldR c else 0) (fieldOP c) := by
  unfold decodeOpcode at h
  generalize hn : (fieldOP c).toNat = n at h
  have hop : fieldOP c = BitVec.ofNat 8 n := by rw [← hn, BitVec.ofNat_toNat, BitVec.setWidth_eq]
  rw [hop]
  split at h <;> cases h
  -- ARK, whose operand is the number that R holds.
  case h_15 => exact ⟨decide_eq_true (fieldR c).isLt, by rw [encode, BitVec.ofNat_toNat, BitVec.setWidth_eq]; rfl⟩
  all_goals exact ⟨rfl, rfl⟩

/-- A field that is 0 unless used is what its use leaves of it. -/
theorem ite_zero_of_unused {n : Nat} {used : Bool} {x : BitVec n} (h : used = true ∨ x = 0) :
    (if used then x else 0) = x :=
  ite_eq_left_iff.2 fun hunused => (h.resolve_left hunused).symm

theorem encode_of_decode (h : decode c = .ok i) : i.wellFormed = true ∧ encode i = c := by
  obtain ⟨-, hrsv, hz, hi⟩ := decode_eq_ok_iff.1 h
  obtain ⟨hwf, henc⟩ := encode_of_decodeOpcode hi
  simp only [unusedFieldsZero, Bool.and_eq_true, Bool.or_eq_true, beq_iff_eq] at hz
  obtain ⟨⟨hr, ha⟩, hb⟩ := hz
  rw [ite_zero_of_unused hb, ite_zero_of_unused ha, ite_zero_of_unused hr] at henc
  exact ⟨hwf, henc.trans (eq_encodeFields_iff.2 ⟨rfl, rfl, hrsv, rfl, rfl⟩).symm⟩

/-- Settles O2: the fields that the opcode does not use are 0 in a legal word, as they are in the encoding. -/
theorem legalWordIsItsCommandsEncoding : Obligations.LegalWordIsItsCommandsEncoding := by
  unfold Obligations.LegalWordIsItsCommandsEncoding
  exact fun c i => encode_of_decode

/-! The match and mask patterns. -/

/-- The legal words are the encodings of the well-formed commands. -/
theorem exists_decode_eq_ok_iff_encode : (∃ i, decode c = .ok i) ↔ ∃ i, i.wellFormed = true ∧ encode i = c := by
  constructor
  · rintro ⟨i, h⟩
    exact ⟨i, encode_of_decode h⟩
  · rintro ⟨i, hwf, rfl⟩
    exact ⟨i, decode_encode hwf⟩

/-- A mask and its match, field by field. -/
theorem and_eq_encodeFields_iff {m : Word} {op : Byte} :
    c &&& m = encodeFields 0 0 0 op ↔
      fieldB c &&& fieldB m = 0 ∧ fieldA c &&& fieldA m = 0 ∧ fieldRSV c &&& fieldRSV m = 0 ∧
      fieldR c &&& fieldR m = 0 ∧ fieldOP c &&& fieldOP m = op := by
  rw [eq_encodeFields_iff]
  unfold fieldB fieldA fieldRSV fieldR fieldOP
  simp only [BitVec.extractLsb'_and]

/-- The mask of SBOX and ISBOX leaves A free. -/
theorem and_maskA_eq_iff (op : Byte) :
    c &&& 0xFF00FFFF = encodeFields 0 0 0 op ↔ ∃ a, c = encodeFields 0 a 0 op := by
  obtain ⟨hB, hA, hRSV, hR, hOP⟩ : fieldB 0xFF00FFFF = BitVec.allOnes 8 ∧ fieldA 0xFF00FFFF = 0 ∧
    fieldRSV 0xFF00FFFF = BitVec.allOnes 4 ∧ fieldR 0xFF00FFFF = BitVec.allOnes 4 ∧
    fieldOP 0xFF00FFFF = BitVec.allOnes 8 := by decide
  rw [and_eq_encodeFields_iff, hB, hA, hRSV, hR, hOP]
  simp only [BitVec.and_allOnes, eq_encodeFields_iff]
  simp

/-- The mask of GFMUL leaves A and B free. -/
theorem and_maskAB_eq_iff (op : Byte) :
    c &&& 0x0000FFFF = encodeFields 0 0 0 op ↔ ∃ a b, c = encodeFields b a 0 op := by
  obtain ⟨hB, hA, hRSV, hR, hOP⟩ : fieldB 0x0000FFFF = 0 ∧ fieldA 0x0000FFFF = 0 ∧
    fieldRSV 0x0000FFFF = BitVec.allOnes 4 ∧ fieldR 0x0000FFFF = BitVec.allOnes 4 ∧
    fieldOP 0x0000FFFF = BitVec.allOnes 8 := by decide
  rw [and_eq_encodeFields_iff, hB, hA, hRSV, hR, hOP]
  simp only [BitVec.and_allOnes, eq_encodeFields_iff]
  simp

/-- The mask of ARK leaves R free. -/
theorem and_maskR_eq_iff (op : Byte) :
    c &&& 0xFFFFF0FF = encodeFields 0 0 0 op ↔ ∃ r, c = encodeFields 0 0 r op := by
  obtain ⟨hB, hA, hRSV, hR, hOP⟩ : fieldB 0xFFFFF0FF = BitVec.allOnes 8 ∧ fieldA 0xFFFFF0FF = BitVec.allOnes 8 ∧
    fieldRSV 0xFFFFF0FF = BitVec.allOnes 4 ∧ fieldR 0xFFFFF0FF = 0 ∧ fieldOP 0xFFFFF0FF = BitVec.allOnes 8 := by decide
  rw [and_eq_encodeFields_iff, hB, hA, hRSV, hR, hOP]
  simp only [BitVec.and_allOnes, eq_encodeFields_iff]
  simp

/-- The commands that use no field, in the order of rule R103. -/
def noOperandCommands : List Instr :=
  [.nop, .bsf, .bsi, .trn, .kexp, .subb, .isubb, .shrows, .ishrows, .mixcol, .imixcol, .enc, .dec]

theorem map_encode_noOperandCommands :
    noOperandCommands.map encode =
      [0x00, 0x04, 0x05, 0x06, 0x07, 0x08, 0x09, 0x0A, 0x0B, 0x0C, 0x0D, 0x0F, 0x10] := by decide

theorem wellFormed_of_mem_noOperandCommands (h : i ∈ noOperandCommands) : i.wellFormed = true := by
  have hall : ∀ i ∈ noOperandCommands, i.wellFormed = true := by decide
  exact hall i h

/-- The patterns of rule R104: each is the form of the encodings of the commands it stands for. -/
theorem exists_decode_eq_ok_iff_patterns :
    (∃ i, decode c = .ok i) ↔
      c &&& 0xFF00FFFF = 0x00000001 ∨ c &&& 0xFF00FFFF = 0x00000002 ∨ c &&& 0x0000FFFF = 0x00000003 ∨
      c &&& 0xFFFFF0FF = 0x0000000E ∨ ∃ op ∈ noOperandCommands.map encode, c &&& 0xFFFFFFFF = op := by
  have hones : c &&& 0xFFFFFFFF = c := BitVec.and_allOnes
  rw [exists_decode_eq_ok_iff_encode, hones]
  constructor
  · rintro ⟨i, -, rfl⟩
    cases i with
    | sbox a => exact .inl ((and_maskA_eq_iff 0x01).2 ⟨a, rfl⟩)
    | isbox a => exact .inr (.inl ((and_maskA_eq_iff 0x02).2 ⟨a, rfl⟩))
    | gfmul a b => exact .inr (.inr (.inl ((and_maskAB_eq_iff 0x03).2 ⟨a, b, rfl⟩)))
    | ark r => exact .inr (.inr (.inr (.inl ((and_maskR_eq_iff 0x0E).2 ⟨_, rfl⟩))))
    | nop | bsf | bsi | trn | kexp | subb | isubb | shrows | ishrows | mixcol | imixcol | enc | dec =>
      exact .inr (.inr (.inr (.inr ⟨_, List.mem_map_of_mem (by decide), rfl⟩)))
  · rintro (h | h | h | h | ⟨_, hmem, rfl⟩)
    · obtain ⟨a, rfl⟩ := (and_maskA_eq_iff 0x01).1 h
      exact ⟨.sbox a, rfl, rfl⟩
    · obtain ⟨a, rfl⟩ := (and_maskA_eq_iff 0x02).1 h
      exact ⟨.isbox a, rfl, rfl⟩
    · obtain ⟨a, b, rfl⟩ := (and_maskAB_eq_iff 0x03).1 h
      exact ⟨.gfmul a b, rfl, rfl⟩
    · obtain ⟨r, rfl⟩ := (and_maskR_eq_iff 0x0E).1 h
      exact ⟨.ark r.toNat, decide_eq_true r.isLt, by rw [encode, BitVec.ofNat_toNat, BitVec.setWidth_eq]; rfl⟩
    · obtain ⟨i, hi, rfl⟩ := List.mem_map.1 hmem
      exact ⟨i, wellFormed_of_mem_noOperandCommands hi, rfl⟩

end Sys2Proof
end

section
/-! PROOF. A word that is not legal ends in ILLEGAL_CMD with no other effect (O3 and O4), and ILLEGAL_CMD comes before ROUND_RANGE
and NO_KEY (O9). -/

namespace Sys2Proof.Machine

variable {s : State}

theorem onlyErrorReported_raiseCmdError (code : ErrCode) (s : State) : OnlyErrorReported code s (raiseCmdError code s) := rfl

theorem engineStep_reports_illegalCmd (h : ¬ ∃ i, decode s.cmd = .ok i) :
    ∃ t, engineStep s = .next t ∧ OnlyErrorReported .illegalCmd s t := by
  cases hd : decode s.cmd with
  | ok i => exact absurd ⟨i, hd⟩ h
  | error e => exact ⟨_, engineStep_error hd, onlyErrorReported_raiseCmdError ..⟩

/-- Settles O3: the conditions are the decoder's own tests, the patterns are the forms of the encodings, and the Engine step on any
other word is the error entry. -/
theorem legalWordsMatchThePatterns : Obligations.LegalWordsMatchThePatterns := by
  unfold Obligations.LegalWordsMatchThePatterns
  intro c
  refine ⟨exists_decode_eq_ok_iff, ?_, ?_⟩
  · rw [← map_encode_noOperandCommands]
    exact exists_decode_eq_ok_iff_patterns
  · rintro s rfl h
    exact engineStep_reports_illegalCmd h

/-- Settles O4: each case breaks one of the conditions of a legal word. -/
theorem reservedEncodingsEndInIllegalCmd : Obligations.ReservedEncodingsEndInIllegalCmd := by
  unfold Obligations.ReservedEncodingsEndInIllegalCmd
  refine ⟨fun s h => engineStep_reports_illegalCmd fun hlegal => ?_, by decide, fun s hcmd => ?_⟩
  · obtain ⟨hop, hrsv, hr, ha, hb⟩ := exists_decode_eq_ok_iff.1 hlegal
    obtain hop' | hrsv' | ⟨hne, hop'⟩ | ⟨hne, h1, h2, h3⟩ | ⟨hne, hop'⟩ := h
    case inl => exact absurd (BitVec.le_trans hop' hop) (by decide)
    · exact hrsv' hrsv
    · exact hop' (hr hne)
    · obtain h | h | h := ha hne
      · exact h1 h
      · exact h2 h
      · exact h3 h
    · exact hop' (hb hne)
  · have hd : decode 0xFFFFFFFF = .error .reservedOpcode := by decide
    exact ⟨_, engineStep_error (hcmd ▸ hd), onlyErrorReported_raiseCmdError ..⟩

/-- Settles O9: the decoder comes before ARK, and ARK looks at R before RKVALID. -/
theorem arkReportsTheFirstErrorInOrder : Obligations.ArkReportsTheFirstErrorInOrder := by
  unfold Obligations.ArkReportsTheFirstErrorInOrder
  refine ⟨?illegal, by decide, ?roundRange, ?noKey, ?illegalArk⟩
  case illegal =>
    rintro s ⟨e, he⟩
    exact ⟨_, engineStep_error he, onlyErrorReported_raiseCmdError ..⟩
  case roundRange =>
    exact fun s => ⟨_, exec_ark_roundRange s (le_refl 15), onlyErrorReported_raiseCmdError ..⟩
  case noKey =>
    exact fun s r hr hk => ⟨_, exec_ark_noKey s hr hk, onlyErrorReported_raiseCmdError ..⟩
  case illegalArk =>
    intro s hcmd
    have hd : decode 0x00001F0E = .error .reservedField := by decide
    exact ⟨_, engineStep_error (hcmd ▸ hd), onlyErrorReported_raiseCmdError ..⟩

end Sys2Proof.Machine
end

section
/-! PROOF. The configured tables: the check of rule R123 and the two lookups (O17), and the commands that write RESULT from them (O13)
or nothing (O12). -/

namespace Sys2Proof.Machine

variable {t : Vector Byte 256}

theorem sboxValues_append_singleton (l : List Byte) (b : Byte) :
    sboxValues (l ++ [b]) = sboxValues l ||| 1 <<< b.toNat :=
  List.foldl_concat ..

theorem testBit_sboxValues {l : List Byte} {v : Nat} : (sboxValues l).testBit v = true ↔ ∃ b ∈ l, b.toNat = v := by
  induction l using List.reverseRecOn with
  | nil => simp [sboxValues]
  | append_singleton l b ih =>
    rw [sboxValues_append_singleton, Nat.testBit_or, Bool.or_eq_true, ih, Nat.one_shiftLeft, Nat.testBit_two_pow]
    simp [or_and_right, exists_or]

/-- The 256 low bits are all set when every byte occurs; no other bit is ever set. -/
theorem sboxValues_eq_iff {l : List Byte} : sboxValues l = 2 ^ 256 - 1 ↔ ∀ b : Byte, b ∈ l := by
  constructor
  · intro h b
    have hbit : (sboxValues l).testBit b.toNat = true := by
      rw [h, Nat.testBit_two_pow_sub_one]
      exact decide_eq_true b.isLt
    obtain ⟨b', hmem, hb'⟩ := testBit_sboxValues.1 hbit
    exact BitVec.eq_of_toNat_eq hb' ▸ hmem
  · refine fun h => Nat.eq_of_testBit_eq fun v => Bool.eq_iff_iff.2 ?_
    rw [testBit_sboxValues, Nat.testBit_two_pow_sub_one, decide_eq_true_iff]
    constructor
    · rintro ⟨b, -, rfl⟩
      exact b.isLt
    · exact fun hv => ⟨BitVec.ofNat 8 v, h _, by rw [BitVec.toNat_ofNat, Nat.mod_eq_of_lt hv]⟩

theorem mem_toList_iff_sboxAt {b : Byte} : b ∈ t.toList ↔ ∃ a, sboxAt t a = b := by
  rw [Vector.mem_toList_iff, Vector.mem_iff_getElem]
  constructor
  · rintro ⟨i, hi, h⟩
    exact ⟨⟨i, hi⟩, h⟩
  · rintro ⟨a, h⟩
    exact ⟨a.toNat, a.isLt, h⟩

/-- A table of 256 bytes in which every byte occurs has none twice. -/
theorem sboxBijective_iff : sboxBijective t = true ↔ Function.Bijective (sboxAt t) := by
  rw [← Finite.surjective_iff_bijective, sboxBijective, beq_iff_eq, sboxValues_eq_iff]
  exact forall_congr' fun b => mem_toList_iff_sboxAt

theorem sboxAt_invSboxAt (h : Function.Bijective (sboxAt t)) (b : Byte) : sboxAt t (invSboxAt t b) = b := by
  have hidx : t.toList.idxOf b < t.toList.length := List.idxOf_lt_length_of_mem (mem_toList_iff_sboxAt.2 (h.surjective b))
  have hlt : t.toList.idxOf b < 2 ^ 8 := by simpa using hidx
  calc sboxAt t (invSboxAt t b) = t[t.toList.idxOf b] := by
        simp only [sboxAt, invSboxAt, BitVec.toNat_ofNat, Nat.mod_eq_of_lt hlt]
    _ = t.toList[t.toList.idxOf b] := (Vector.getElem_toList hidx).symm
    _ = b := List.getElem_idxOf hidx

theorem invSboxAt_sboxAt (h : Function.Bijective (sboxAt t)) (b : Byte) : invSboxAt t (sboxAt t b) = b :=
  h.injective (sboxAt_invSboxAt h _)

theorem step_refused {s : State} (h : sboxBijective s.sboxTable = false) : step s = .refused .sboxNotBijective := by
  simp [step, runTurn, h]

/-- Settles O17: the check asks for every value, which in a table of 256 entries is bijectivity. -/
theorem onlyBijectiveSboxTablesRun : Obligations.OnlyBijectiveSboxTablesRun := by
  unfold Obligations.OnlyBijectiveSboxTablesRun
  exact ⟨fun t => sboxBijective_iff, fun s h => step_refused (Bool.eq_false_iff.2 (mt sboxBijective_iff.1 h)),
    fun t b h => ⟨invSboxAt_sboxAt h b, sboxAt_invSboxAt h b⟩⟩

/-- Settles O13: SBOX writes the entry itself, and ISBOX the place where the lookup gives A back. -/
theorem sboxAndIsboxWriteResult : Obligations.SboxAndIsboxWriteResult := by
  unfold Obligations.SboxAndIsboxWriteResult
  exact fun s a => ⟨⟨_, exec_sbox s a, rfl, rfl⟩, ⟨_, exec_isbox s a, rfl, fun h => sboxAt_invSboxAt (sboxBijective_iff.1 h) a⟩⟩

/-- Settles O12: NOP's meaning is the completion. -/
theorem nopOnlyCompletes : Obligations.NopOnlyCompletes := exec_nop

end Sys2Proof.Machine
end

section
/-! PROOF. gfMul is additive in each argument (40_tables.md rules R120 and R124). So a law whose two sides are additive holds of every
byte when it holds of the powers of x, and the field laws (O15) follow; with the inverses, the default table's formula (O18). -/

namespace Sys2Proof.Machine

variable {a b c : Byte}

/-! Sums of bits and bytes. -/

theorem xor_xor_xor_comm {w : Nat} (x y z u : BitVec w) : (x ^^^ y) ^^^ (z ^^^ u) = (x ^^^ z) ^^^ (y ^^^ u) := by ac_rfl

theorem ite_xor_eq_xor_ite {w : Nat} (p q : Bool) (x : BitVec w) :
    (if (p ^^ q) = true then x else 0) = (if p = true then x else 0) ^^^ (if q = true then x else 0) := by
  cases p <;> cases q <;> simp

theorem ite_xor_distrib {w : Nat} (p : Prop) [Decidable p] (x y : BitVec w) :
    (if p then x ^^^ y else 0) = (if p then x else 0) ^^^ (if p then y else 0) := by
  split <;> simp

theorem ite_xor_self {w : Nat} (p : Prop) [Decidable p] (x y : BitVec w) :
    (if p then x ^^^ y else x) = x ^^^ (if p then y else 0) := by
  split <;> simp

/-- Every byte is a sum of powers of x. -/
theorem byte_xor_induction {P : Byte → Prop} (zero : P 0) (xor : ∀ a b, P a → P b → P (a ^^^ b))
    (pow : ∀ i : Fin 8, P ((1 : Byte) <<< i.val)) (b : Byte) : P b := by
  have hsum : ∀ n ≤ 8, ∀ b : Byte, (∀ i, n ≤ i → b.getLsbD i = false) → P b := by
    intro n
    induction n with
    | zero =>
      intro _ b hb
      have hzero : b = 0 := BitVec.eq_of_getLsbD_eq fun i _ => by simp [hb i (Nat.zero_le i)]
      exact hzero ▸ zero
    | succ n ih =>
      intro hn b hb
      cases htop : b.getLsbD n with
      | false =>
        refine ih (by omega) b fun i hi => ?_
        obtain rfl | hlt := hi.eq_or_lt
        · exact htop
        · exact hb i hlt
      | true =>
        have hrest : P (b ^^^ (1 : Byte) <<< n) := by
          refine ih (by omega) _ fun i hi => ?_
          obtain rfl | hlt := hi.eq_or_lt
          · simp [htop]; omega
          · simp [hb i hlt]; omega
        have hb' : b = (b ^^^ (1 : Byte) <<< n) ^^^ (1 : Byte) <<< n := by
          rw [BitVec.xor_assoc, BitVec.xor_self, BitVec.xor_zero]
        exact hb' ▸ xor _ _ hrest (pow ⟨n, by omega⟩)
  exact hsum 8 (le_refl 8) b fun i hi => BitVec.getLsbD_of_ge b i hi

/-! The loop. -/

/-- A byte times x: the left shift of rule R120 with its reduction. -/
def gfDouble (a : Byte) : Byte := a <<< 1 ^^^ if a.getLsbD 7 then 0x1B else 0

@[simp] theorem gfDouble_zero : gfDouble 0#8 = 0#8 := by decide

theorem gfDouble_xor (a b : Byte) : gfDouble (a ^^^ b) = gfDouble a ^^^ gfDouble b := by
  simp only [gfDouble, BitVec.shiftLeft_xor_distrib, BitVec.getLsbD_xor, ite_xor_eq_xor_ite]
  exact xor_xor_xor_comm ..

/-- The loop keeps x below 0x100: its ninth bit is reduced away in the pass that shifts it in. -/
theorem shiftLeft_reduced_eq (a : Byte) :
    (if (a.setWidth 9 <<< 1).getLsbD 8 then a.setWidth 9 <<< 1 ^^^ 0x11B else a.setWidth 9 <<< 1) =
      (gfDouble a).setWidth 9 := by
  revert a
  decide

@[simp] theorem gfMulLoop_zero_left (n : Nat) (y acc : Byte) : gfMulLoop n 0#9 y acc = acc := by
  cases n <;> simp [gfMulLoop]

@[simp] theorem gfMulLoop_zero_right (n : Nat) (x : BitVec 9) (acc : Byte) : gfMulLoop n x 0#8 acc = acc := by
  cases n <;> simp [gfMulLoop]

/-- One pass of the loop, also where it has already stopped. -/
theorem gfMulLoop_succ (n : Nat) (a b acc : Byte) :
    gfMulLoop (n + 1) (a.setWidth 9) b acc =
      gfMulLoop n ((gfDouble a).setWidth 9) (b >>> 1) (acc ^^^ if b.getLsbD 0 then a else 0) := by
  by_cases hstop : a.setWidth 9 = 0 ∨ b = 0
  · obtain ha | rfl := hstop
    · obtain rfl : a = 0 := by simpa using congrArg (BitVec.setWidth 8) ha
      simp
    · simp
  · have hwidth : (a.setWidth 9).setWidth 8 = a := by simp
    simp only [gfMulLoop, if_neg hstop]
    rw [shiftLeft_reduced_eq, hwidth, ite_xor_self]

theorem gfMulLoop_xor_left (n : Nat) (a a' b acc acc' : Byte) :
    gfMulLoop n ((a ^^^ a').setWidth 9) b (acc ^^^ acc') =
      gfMulLoop n (a.setWidth 9) b acc ^^^ gfMulLoop n (a'.setWidth 9) b acc' := by
  induction n generalizing a a' b acc acc' with
  | zero => rfl
  | succ n ih =>
    rw [gfMulLoop_succ, gfMulLoop_succ, gfMulLoop_succ, ← ih, gfDouble_xor, ite_xor_distrib, xor_xor_xor_comm]

theorem gfMulLoop_xor_right (n : Nat) (a b b' acc acc' : Byte) :
    gfMulLoop n (a.setWidth 9) (b ^^^ b') (acc ^^^ acc') =
      gfMulLoop n (a.setWidth 9) b acc ^^^ gfMulLoop n (a.setWidth 9) b' acc' := by
  induction n generalizing a b b' acc acc' with
  | zero => rfl
  | succ n ih =>
    rw [gfMulLoop_succ, gfMulLoop_succ, gfMulLoop_succ, ← ih, BitVec.ushiftRight_xor_distrib, BitVec.getLsbD_xor,
      ite_xor_eq_xor_ite, xor_xor_xor_comm]

/-! The laws of gfMul. -/

theorem gfMul_xor_left (a b c : Byte) : gfMul (a ^^^ b) c = gfMul a c ^^^ gfMul b c :=
  gfMulLoop_xor_left 8 a b c 0 0

theorem gfMul_xor_right (a b c : Byte) : gfMul a (b ^^^ c) = gfMul a b ^^^ gfMul a c :=
  gfMulLoop_xor_right 8 a b c 0 0

@[simp] theorem gfMul_zero_left (a : Byte) : gfMul 0#8 a = 0#8 := gfMulLoop_zero_left 8 a 0

@[simp] theorem gfMul_zero_right (a : Byte) : gfMul a 0#8 = 0#8 := gfMulLoop_zero_right 8 _ 0

theorem gfMul_one_left (a : Byte) : gfMul 1 a = a := by
  induction a using byte_xor_induction with
  | zero => rfl
  | xor a b ha hb => rw [gfMul_xor_right, ha, hb]
  | pow i => revert i; decide

theorem gfMul_comm (a b : Byte) : gfMul a b = gfMul b a := by
  induction a using byte_xor_induction with
  | zero => simp
  | xor a a' ha ha' => rw [gfMul_xor_left, gfMul_xor_right, ha, ha']
  | pow i =>
    induction b using byte_xor_induction with
    | zero => simp
    | xor b b' hb hb' => rw [gfMul_xor_left, gfMul_xor_right, hb, hb']
    | pow j => revert i j; decide

theorem gfMul_one_right (a : Byte) : gfMul a 1 = a := by rw [gfMul_comm, gfMul_one_left]

theorem gfMul_assoc (a b c : Byte) : gfMul (gfMul a b) c = gfMul a (gfMul b c) := by
  induction a using byte_xor_induction with
  | zero => simp
  | xor a a' ha ha' => simp only [gfMul_xor_left, ha, ha']
  | pow i =>
    induction b using byte_xor_induction with
    | zero => simp
    | xor b b' hb hb' => simp only [gfMul_xor_left, gfMul_xor_right, hb, hb']
    | pow j =>
      induction c using byte_xor_induction with
      | zero => simp
      | xor c c' hc hc' => simp only [gfMul_xor_right, hc, hc']
      | pow k => revert i j k; decide +kernel

/-! The inverse. -/

/-- Rule R121's affine map. -/
def sboxAffine (y : Byte) : Byte :=
  y ^^^ y.rotateLeft 1 ^^^ y.rotateLeft 2 ^^^ y.rotateLeft 3 ^^^ y.rotateLeft 4 ^^^ 0x63

/-- The inverse of the affine map. -/
def sboxAffineInverse (z : Byte) : Byte := z.rotateLeft 1 ^^^ z.rotateLeft 3 ^^^ z.rotateLeft 6 ^^^ 0x05

theorem sboxAffine_sboxAffineInverse : ∀ z : Byte, sboxAffine (sboxAffineInverse z) = z := by decide

/-- The inverse of a byte, 0 for 0, read off the default table: the table is the affine map of it. -/
def gfInverse (a : Byte) : Byte := sboxAffineInverse (sboxAt fipsSbox a)

theorem sboxAt_fipsSbox (a : Byte) : sboxAt fipsSbox a = sboxAffine (gfInverse a) :=
  (sboxAffine_sboxAffineInverse _).symm

theorem gfMul_gfInverse : ∀ a : Byte, a ≠ 0 → gfMul a (gfInverse a) = 1 := by decide +kernel

theorem eq_of_gfMul_eq_one (hb : gfMul a b = 1) (hc : gfMul a c = 1) : b = c :=
  calc b = gfMul b (gfMul a c) := by rw [hc, gfMul_one_right]
    _ = gfMul (gfMul a b) c := by rw [← gfMul_assoc, gfMul_comm b a]
    _ = c := by rw [hb, gfMul_one_left]

/-- Settles O15: additivity is the loop's, commutativity and associativity follow from the powers of x, and each inverse is
read off the default table. -/
theorem gfMulFieldLaws : Obligations.GfMulFieldLaws := by
  unfold Obligations.GfMulFieldLaws
  exact ⟨fun a => ⟨gfMul_zero_right a, gfMul_zero_left a, gfMul_one_left a, gfMul_one_right a⟩, gfMul_xor_right, gfMul_xor_left,
    gfMul_comm, fun a b c => (gfMul_assoc a b c).symm,
    fun a ha => ⟨gfInverse a, gfMul_gfInverse a ha, fun b' hb' => eq_of_gfMul_eq_one hb' (gfMul_gfInverse a ha)⟩⟩

/-- Settles O18: the inverse that the table's entry is the affine map of. -/
theorem defaultSboxIsInverseThenAffine : Obligations.DefaultSboxIsInverseThenAffine := by
  unfold Obligations.DefaultSboxIsInverseThenAffine
  refine fun x => ⟨gfInverse x, ?_, gfMul_gfInverse x, sboxAt_fipsSbox x⟩
  rintro rfl
  decide

end Sys2Proof.Machine
end

section
/-! PROOF. gfMul's byte is the polynomial product less a multiple of 0x11B (O14): both are additive in each argument, so the powers of
x suffice. -/

namespace Sys2Proof.Machine

/-- The sum of the shifted multiplicand for one bit of the multiplier. -/
def addShifted (a : BitVec 16) (b : Byte) (acc : BitVec 16) (i : Nat) : BitVec 16 :=
  acc ^^^ if b.getLsbD i then a <<< i else 0

/-- The start 0 is written as a sum, for `List.foldl_hom₂`. -/
theorem polynomialProduct_eq_foldl (a : BitVec 16) (b : Byte) :
    polynomialProduct a b = (List.range 8).foldl (addShifted a b) (0 ^^^ 0) := by
  simp only [polynomialProduct, ite_xor_self]
  rfl

@[simp] theorem polynomialProduct_zero_left (b : Byte) : polynomialProduct 0#16 b = 0#16 := by simp [polynomialProduct]

@[simp] theorem polynomialProduct_zero_right (a : BitVec 16) : polynomialProduct a 0#8 = 0#16 := by simp [polynomialProduct]

theorem addShifted_xor_left (a a' : BitVec 16) (b : Byte) (acc acc' : BitVec 16) (i : Nat) :
    addShifted a b acc i ^^^ addShifted a' b acc' i = addShifted (a ^^^ a') b (acc ^^^ acc') i := by
  rw [addShifted, addShifted, addShifted, xor_xor_xor_comm, ← ite_xor_distrib, BitVec.shiftLeft_xor_distrib]

theorem addShifted_xor_right (a : BitVec 16) (b b' : Byte) (acc acc' : BitVec 16) (i : Nat) :
    addShifted a b acc i ^^^ addShifted a b' acc' i = addShifted a (b ^^^ b') (acc ^^^ acc') i := by
  rw [addShifted, addShifted, addShifted, xor_xor_xor_comm, ← ite_xor_eq_xor_ite, BitVec.getLsbD_xor]

theorem polynomialProduct_xor_left (a a' : BitVec 16) (b : Byte) :
    polynomialProduct (a ^^^ a') b = polynomialProduct a b ^^^ polynomialProduct a' b := by
  simp only [polynomialProduct_eq_foldl]
  exact List.foldl_hom₂ (List.range 8) (· ^^^ ·) _ _ _ _ _ (addShifted_xor_left a a' b)

theorem polynomialProduct_xor_right (a : BitVec 16) (b b' : Byte) :
    polynomialProduct a (b ^^^ b') = polynomialProduct a b ^^^ polynomialProduct a b' := by
  simp only [polynomialProduct_eq_foldl]
  exact List.foldl_hom₂ (List.range 8) (· ^^^ ·) _ _ _ _ _ (addShifted_xor_right a b b')

/-- `r` is the remainder of the polynomial `a` modulo 0x11B: the two differ by a multiple of it. -/
def IsRemainder (a : BitVec 16) (r : Byte) : Prop := ∃ q : Byte, a = polynomialProduct 0x11B q ^^^ r.setWidth 16

theorem isRemainder_zero : IsRemainder 0 0 := ⟨0, by decide⟩

theorem IsRemainder.xor {a a' : BitVec 16} {r r' : Byte} (h : IsRemainder a r) (h' : IsRemainder a' r') :
    IsRemainder (a ^^^ a') (r ^^^ r') := by
  obtain ⟨q, rfl⟩ := h
  obtain ⟨q', rfl⟩ := h'
  exact ⟨q ^^^ q', by rw [polynomialProduct_xor_right, BitVec.setWidth_xor, xor_xor_xor_comm]⟩

/-- The quotient of x^14 by the modulus is 0x46, and of a lower power its leading bits. -/
theorem isRemainder_powers (i j : Fin 8) :
    IsRemainder (polynomialProduct (((1 : Byte) <<< i.val).setWidth 16) ((1 : Byte) <<< j.val))
      (gfMul ((1 : Byte) <<< i.val) ((1 : Byte) <<< j.val)) :=
  ⟨0x46 >>> (14 - (i.val + j.val)), by revert i j; decide⟩

/-- Both products are additive in each argument, and remainders add. -/
theorem isRemainder_gfMul (a b : Byte) : IsRemainder (polynomialProduct (a.setWidth 16) b) (gfMul a b) := by
  induction b using byte_xor_induction with
  | zero => simpa using isRemainder_zero
  | xor b b' hb hb' => rw [polynomialProduct_xor_right, gfMul_xor_right]; exact hb.xor hb'
  | pow j =>
    induction a using byte_xor_induction with
    | zero => simpa using isRemainder_zero
    | xor a a' ha ha' => rw [BitVec.setWidth_xor, polynomialProduct_xor_left, gfMul_xor_left]; exact ha.xor ha'
    | pow i => exact isRemainder_powers i j

/-- Settles O14: GFMUL writes gfMul's byte, which is the remainder of the polynomial product. -/
theorem gfmulWritesTheReducedProduct : Obligations.GfmulWritesTheReducedProduct := by
  unfold Obligations.GfmulWritesTheReducedProduct
  exact fun s a b => ⟨_, exec_gfmul s a b, rfl, isRemainder_gfMul a b⟩

end Sys2Proof.Machine
end

section
/-! PROOF. The diffusion layer (41_diffusion.md): a rotation is said bit by bit and carried from a byte to a block, a transpose by rows
and columns. -/

namespace Sys2Proof.Machine

/-! Rotations of one byte. -/

theorem getElem_rotateRight_byte (b : Byte) (r i : Nat) (hi : i < 8) : (b.rotateRight r)[i] = b[(i + r) % 8] := by
  rw [BitVec.getElem_rotateRight]
  split <;> congr 1 <;> omega

/-- Left by r is right by 7r modulo 8, which keeps the index a sum. -/
theorem getElem_rotateLeft_byte (b : Byte) (r i : Nat) (hi : i < 8) : (b.rotateLeft r)[i] = b[(i + 7 * r) % 8] := by
  rw [BitVec.getElem_rotateLeft]
  split <;> congr 1 <;> omega

theorem rotateLeft_rotateRight (b : Byte) (r : Nat) : (b.rotateRight r).rotateLeft r = b := by
  ext i hi
  rw [getElem_rotateLeft_byte, getElem_rotateRight_byte]
  congr 1
  omega

theorem rotateRight_rotateLeft (b : Byte) (r : Nat) : (b.rotateLeft r).rotateRight r = b := by
  ext i hi
  rw [getElem_rotateRight_byte, getElem_rotateLeft_byte]
  congr 1
  omega

theorem rotateRight_rotateRight (b : Byte) (r r' : Nat) : (b.rotateRight r).rotateRight r' = b.rotateRight (r + r') := by
  ext i hi
  simp only [getElem_rotateRight_byte]
  congr 1
  omega

/-- P1C's formula of rule R135: its mask drops only bits that the shift drops. -/
theorem rotateRight_one_eq_or (b : Byte) : b.rotateRight 1 = (b >>> 1) ||| ((b &&& 1) <<< 7) := by
  have hbit : (b &&& 1).toNat = b.toNat % 2 := Nat.and_one_is_mod b.toNat
  have hmask : (b &&& 1) <<< 7 = b <<< 7 := by
    apply BitVec.eq_of_toNat_eq
    rw [BitVec.toNat_shiftLeft, BitVec.toNat_shiftLeft, hbit, Nat.shiftLeft_eq, Nat.shiftLeft_eq]
    omega
  rw [hmask]
  exact BitVec.rotateRight_def

/-- P1C's formula of rule R136. -/
theorem rotateLeft_one_eq_or (b : Byte) : b.rotateLeft 1 = (b <<< 1) ||| (b >>> 7) := BitVec.rotateLeft_def

/-- The concatenation of rule R135. -/
theorem rotateRight_one_eq_append (b : Byte) : b.rotateRight 1 = b.extractLsb' 0 1 ++ b.extractLsb' 1 7 := by
  ext i hi
  rw [BitVec.getElem_rotateRight, BitVec.getElem_append]
  split <;> rw [BitVec.getElem_extractLsb', BitVec.getLsbD_eq_getElem] <;> congr 1 <;> omega

/-- The concatenation of rule R136. -/
theorem rotateLeft_one_eq_append (b : Byte) : b.rotateLeft 1 = b.extractLsb' 0 7 ++ b.extractLsb' 7 1 := by
  ext i hi
  rw [BitVec.getElem_rotateLeft, BitVec.getElem_append]
  split <;> rw [BitVec.getElem_extractLsb', BitVec.getLsbD_eq_getElem] <;> congr 1 <;> omega

/-! The layer on a block. -/

theorem bitshiftInverse_bitshiftForward (s : Block) : bitshiftInverse (bitshiftForward s) = s :=
  Vector.ext fun p hp => by rw [getElem_bitshiftInverse, getElem_bitshiftForward, rotateLeft_rotateRight]

theorem bitshiftForward_bitshiftInverse (s : Block) : bitshiftForward (bitshiftInverse s) = s :=
  Vector.ext fun p hp => by rw [getElem_bitshiftForward, getElem_bitshiftInverse, rotateRight_rotateLeft]

theorem transpose_transpose (s : Block) : transpose (transpose s) = s :=
  block_ext_rc fun r c => by rw [transpose_rc, transpose_rc]

theorem getElem_bitshiftForward_bitshiftForward (s : Block) (p : Nat) (h : p < 16) :
    (bitshiftForward (bitshiftForward s))[p] = s[p].rotateRight 2 := by
  rw [getElem_bitshiftForward, getElem_bitshiftForward, rotateRight_rotateRight]

/-- A completed write of STATE changes nothing else. -/
theorem onlyStateWritten_complete_setState (b : Block) (s : State) : OnlyStateWritten s (complete (setState b s)) := rfl

/-- Settles O19: each byte is rotated by `rotateRight`, which both formulas write out. -/
theorem bsfRotatesEveryByteRight : Obligations.BsfRotatesEveryByteRight := by
  unfold Obligations.BsfRotatesEveryByteRight
  refine fun s => ⟨_, exec_bsf s, onlyStateWritten_complete_setState _ s, fun p => ?_⟩
  have hp : (bitshiftForward s.state)[p] = s.state[p].rotateRight 1 := getElem_bitshiftForward s.state p.val p.isLt
  exact ⟨hp.trans (rotateRight_one_eq_or _), hp.trans (rotateRight_one_eq_append _)⟩

/-- Settles O20: each byte is rotated by `rotateLeft`, which both formulas write out. -/
theorem bsiRotatesEveryByteLeft : Obligations.BsiRotatesEveryByteLeft := by
  unfold Obligations.BsiRotatesEveryByteLeft
  refine fun s => ⟨_, exec_bsi s, onlyStateWritten_complete_setState _ s, fun p => ?_⟩
  have hp : (bitshiftInverse s.state)[p] = s.state[p].rotateLeft 1 := getElem_bitshiftInverse s.state p.val p.isLt
  exact ⟨hp.trans (rotateLeft_one_eq_or _), hp.trans (rotateLeft_one_eq_append _)⟩

/-- Settles O21: the diagonal bytes are the four whose row is their column. -/
theorem trnSwapsRowsAndColumns : Obligations.TrnSwapsRowsAndColumns := by
  unfold Obligations.TrnSwapsRowsAndColumns
  have hdiag (s : Block) (r : Fin 4) : Block.rc (transpose s) r r = Block.rc s r r := transpose_rc s r r
  exact fun s => ⟨_, exec_trn s, onlyStateWritten_complete_setState _ s, transpose_rc s.state,
    fun p => getElem_transpose s.state p.val p.isLt, hdiag s.state 0, hdiag s.state 1, hdiag s.state 2, hdiag s.state 3,
    transpose_transpose s.state⟩

/-- Settles O22: each law is that of one byte, or of one row and column. -/
theorem diffusionLayerInverses : Obligations.DiffusionLayerInverses := by
  unfold Obligations.DiffusionLayerInverses
  refine ⟨bitshiftInverse_bitshiftForward, bitshiftForward_bitshiftInverse, transpose_transpose,
    fun s p => getElem_bitshiftForward_bitshiftForward s p.val p.isLt, fun s p hp => ?_⟩
  have h1 : (bitshiftForward s)[p] = s[p].rotateRight 1 := getElem_bitshiftForward s p.val p.isLt
  have h2 : (bitshiftForward (bitshiftForward s))[p] = s[p].rotateRight 2 :=
    getElem_bitshiftForward_bitshiftForward s p.val p.isLt
  rw [h1, h2, hp]
  decide

end Sys2Proof.Machine
end

section
/-! PROOF. The key schedule (42_key_schedule.md): the word functions byte by byte and RCON (O24 and O23), the loop of rule R160 as
the recurrence of its words, by an invariant of the words it has written, and what KEXP and the first two round keys make of it
(O25 and O26). -/

namespace Sys2Proof.Machine

/-! The word functions and RCON. -/

theorem rotWord_wordOfBytes (a0 a1 a2 a3 : Byte) : rotWord (wordOfBytes a0 a1 a2 a3) = wordOfBytes a1 a2 a3 a0 := by
  obtain ⟨h0, h1, h2, h3⟩ := wordByte_wordOfBytes a0 a1 a2 a3
  rw [rotWord, h0, h1, h2, h3]

theorem subWord_wordOfBytes (t : Vector Byte 256) (a0 a1 a2 a3 : Byte) :
    subWord t (wordOfBytes a0 a1 a2 a3) = wordOfBytes (sboxAt t a0) (sboxAt t a1) (sboxAt t a2) (sboxAt t a3) := by
  obtain ⟨h0, h1, h2, h3⟩ := wordByte_wordOfBytes a0 a1 a2 a3
  rw [subWord, h0, h1, h2, h3]

theorem wordOfBytes_xor_wordOfBytes (a0 a1 a2 a3 b0 b1 b2 b3 : Byte) :
    wordOfBytes a0 a1 a2 a3 ^^^ wordOfBytes b0 b1 b2 b3 =
      wordOfBytes (a0 ^^^ b0) (a1 ^^^ b1) (a2 ^^^ b2) (a3 ^^^ b3) := by
  have happend : (a3 ++ a2 ++ a1 ++ a0) ^^^ (b3 ++ b2 ++ b1 ++ b0) =
      (a3 ^^^ b3) ++ (a2 ^^^ b2) ++ (a1 ^^^ b1) ++ (a0 ^^^ b0) := by
    simp only [BitVec.xor_append]
  exact happend

/-- Settles O24: a word built of four bytes gives them back. -/
theorem wordFunctionsActOnBytes : Obligations.WordFunctionsActOnBytes := by
  unfold Obligations.WordFunctionsActOnBytes
  exact ⟨rotWord_wordOfBytes, subWord_wordOfBytes, wordOfBytes_xor_wordOfBytes⟩

/-- Settles O23: the table is finite, so both parts are evaluated entry by entry. -/
theorem rconIsTheDoublingSequence : Obligations.RconIsTheDoublingSequence := by
  unfold Obligations.RconIsTheDoublingSequence
  exact ⟨rfl, by decide⟩

/-! The loop of rule R160. -/

/-- What holds at the start of a loop over 0 to n - 1, and is kept by every pass, holds at its end. -/
theorem foldl_finRange_induction {α : Type} {n : Nat} {P : Nat → α → Prop} {f : α → Fin n → α} {x : α} (hstart : P 0 x)
    (hpass : ∀ (i : Fin n) (a : α), P i.val a → P (i.val + 1) (f a i)) : P n ((List.finRange n).foldl f x) := by
  induction n with
  | zero => exact hstart
  | succ n ih =>
    rw [List.finRange_succ_last, List.foldl_append, List.foldl_map]
    exact hpass (Fin.last n) _ (ih fun i => hpass i.castSucc)

variable (t : Vector Byte 256) (key : Key)

theorem getElem_firstWords (i : Nat) (h : i < 8) : (firstWords key)[i] = keyWord key ⟨i, h⟩ :=
  (Vector.getElem_ofFn (by omega)).trans (dif_pos h)

/-- A pass writes one word and leaves the others. -/
theorem getElem_expandWord (w : ExpandedKey) (j : Fin 52) (i : Nat) (h : i < 60) :
    (expandWord t w j)[i] = if 8 + j.val = i then w[j.val] ^^^ expansionTemp t j w[7 + j.val] else w[i] :=
  Vector.getElem_set _ h

/-- The first 8 words are the key's and the n words after them follow the recurrence of rule R160. -/
def ExpandedUpTo (n : Nat) (w : ExpandedKey) : Prop :=
  (∀ k : Fin 8, w[k.val] = keyWord key k) ∧
  ∀ j : Fin 52, j.val < n → w[8 + j.val] = w[j.val] ^^^ expansionTemp t j w[7 + j.val]

variable {t key}

theorem expandedUpTo_firstWords : ExpandedUpTo t key 0 (firstWords key) :=
  ⟨fun k => getElem_firstWords key k.val k.isLt, fun _ hj => absurd hj (Nat.not_lt_zero _)⟩

/-- The pass for word 8 + j writes none of the words that the recurrence of an earlier word, or its own, reads. -/
theorem expandedUpTo_expandWord {w : ExpandedKey} (j : Fin 52) (h : ExpandedUpTo t key j.val w) :
    ExpandedUpTo t key (j.val + 1) (expandWord t w j) := by
  obtain ⟨hkey, hrec⟩ := h
  have hold (i : Nat) (hi : i < 8 + j.val) : (expandWord t w j)[i] = w[i] := by
    rw [getElem_expandWord, if_neg (by omega)]
  have hnew : (expandWord t w j)[8 + j.val] = w[j.val] ^^^ expansionTemp t j w[7 + j.val] := by
    rw [getElem_expandWord, if_pos rfl]
  refine ⟨fun k => (hold k.val (by omega)).trans (hkey k), fun i hi => ?_⟩
  rw [hold i.val (by omega), hold (7 + i.val) (by omega)]
  obtain hlt | heq := Nat.lt_or_eq_of_le (Nat.le_of_lt_succ hi)
  · rw [hold (8 + i.val) (by omega), hrec i hlt]
  · obtain rfl := Fin.ext heq
    exact hnew

variable (t key)

theorem expandedUpTo_keySchedule : ExpandedUpTo t key 52 (keySchedule t key) :=
  foldl_finRange_induction expandedUpTo_firstWords fun j _ => expandedUpTo_expandWord j

/-! The words of the key schedule. -/

theorem getElem_keySchedule_key (k : Fin 8) : (keySchedule t key)[k.val] = keyWord key k := by
  obtain ⟨hkey, -⟩ := expandedUpTo_keySchedule t key
  exact hkey k

/-- The recurrence of rule R160, in the index of the word it gives. -/
theorem getElem_keySchedule (i : Nat) (hlo : 8 ≤ i) (hhi : i < 60) :
    (keySchedule t key)[i] =
      (keySchedule t key)[i - 8] ^^^ expansionTemp t ⟨i - 8, by omega⟩ (keySchedule t key)[i - 1] := by
  obtain ⟨-, hrec⟩ := expandedUpTo_keySchedule t key
  obtain ⟨j, rfl⟩ := Nat.exists_eq_add_of_le hlo
  have hj : j < 52 := by omega
  simpa only [Nat.add_sub_cancel_left, show 8 + j - 1 = 7 + j by omega] using hrec ⟨j, hj⟩ hj

section ExpansionTemp

variable {i : Nat} (hlo : 8 ≤ i) (hhi : i < 60) (prev : Word)

theorem expansionTemp_of_mod_eq_zero (hi : i % 8 = 0) (h : i / 8 < 15) :
    expansionTemp t ⟨i - 8, by omega⟩ prev = subWord t (rotWord prev) ^^^ (rcon[i / 8]).setWidth 32 := by
  simp only [expansionTemp, Nat.add_sub_cancel' hlo, if_pos hi]

theorem expansionTemp_of_mod_eq_four (hi : i % 8 = 4) : expansionTemp t ⟨i - 8, by omega⟩ prev = subWord t prev := by
  simp only [expansionTemp, Nat.add_sub_cancel' hlo, if_neg (show ¬ i % 8 = 0 by omega), if_pos hi]

theorem expansionTemp_of_mod_ne (h0 : i % 8 ≠ 0) (h4 : i % 8 ≠ 4) : expansionTemp t ⟨i - 8, by omega⟩ prev = prev := by
  simp only [expansionTemp, Nat.add_sub_cancel' hlo, if_neg h0, if_neg h4]

end ExpansionTemp

/-- Bytes 16r to 16r + 15 of the key are round key r, for r = 0 and 1 (rule R161). -/
theorem getElem_roundKey_keySchedule (r : Fin 15) (hr : r.val < 2) (p : Fin 16) :
    (roundKey (keySchedule t key) r)[p] = key[16 * r.val + p.val] := by
  have hword := getElem_keySchedule_key t key ⟨4 * r.val + p.val / 4, by omega⟩
  have hbyte := wordByte_keyWord key ⟨4 * r.val + p.val / 4, by omega⟩ ⟨p.val % 4, by omega⟩
  generalize keySchedule t key = w at hword ⊢
  calc (roundKey w r)[p]
      = wordByte w[4 * r.val + p.val / 4] (p.val % 4) := getElem_roundKey w p.val p.isLt r
    _ = key[4 * (4 * r.val + p.val / 4) + p.val % 4] := by rw [hword, hbyte]
    _ = key[16 * r.val + p.val] := by congr 1; omega

/-- Settles O26: the words of round keys 0 and 1 are the 8 words of the key. -/
theorem firstTwoRoundKeysAreTheKey : Obligations.FirstTwoRoundKeysAreTheKey := by
  unfold Obligations.FirstTwoRoundKeysAreTheKey
  intro t key p
  have h0 : (roundKey (keySchedule t key) 0)[p] = key[0 + p.val] :=
    getElem_roundKey_keySchedule t key 0 (by decide) p
  have h1 : (roundKey (keySchedule t key) 1)[p] = key[16 + p.val] :=
    getElem_roundKey_keySchedule t key 1 (by decide) p
  exact ⟨by simpa only [Nat.zero_add] using h0, h1⟩

/-- A completed write of the round keys changes W, RKVALID and the completion's flags. -/
theorem complete_setRoundKeys (w : ExpandedKey) (s : State) :
    complete (setRoundKeys w s) = { s with w := w, status := { completedStatus s.status with rkvalid := true } } := rfl

/-- Settles O25: KEXP writes the key schedule, whose words are the loop's invariant at its end. -/
theorem kexpWritesTheKeySchedule : Obligations.KexpWritesTheKeySchedule := by
  unfold Obligations.KexpWritesTheKeySchedule
  intro s
  have hkey := getElem_keySchedule_key s.sboxTable s.key
  have hrec := getElem_keySchedule s.sboxTable s.key
  refine ⟨_, exec_kexp s, ?_⟩
  rw [complete_setRoundKeys]
  generalize keySchedule s.sboxTable s.key = w at hkey hrec ⊢
  refine ⟨rfl, fun k j => ?_, fun i hlo hhi => ⟨fun hi h => ?_, fun hi => ?_, fun h0 h4 => ?_⟩,
    fun r p => getElem_roundKey w p.val p.isLt r⟩
  · exact (congrArg (wordByte · j.val) (hkey k)).trans (wordByte_keyWord s.key k j)
  · rw [hrec i hlo hhi, expansionTemp_of_mod_eq_zero _ hlo hhi _ hi h]
  · rw [hrec i hlo hhi, expansionTemp_of_mod_eq_four _ hlo hhi _ hi]
  · rw [hrec i hlo hhi, expansionTemp_of_mod_ne _ hlo hhi _ h0 h4]

end Sys2Proof.Machine
end

section
/-! PROOF. The round operations (43_round_ops.md): the lookups, row rotations and the round key byte by byte (O27, O28, O29, O32),
the column transforms as two matrices of GF(2^8) whose products are the identity (O30, O31). -/

namespace Sys2Proof.Machine

/-! The row rotations. -/

theorem invShiftRows_shiftRows (s : Block) : invShiftRows (shiftRows s) = s :=
  block_ext_rc fun r c => by rw [invShiftRows_rc, shiftRows_rc, sub_add_cancel]

theorem shiftRows_invShiftRows (s : Block) : shiftRows (invShiftRows s) = s :=
  block_ext_rc fun r c => by rw [shiftRows_rc, invShiftRows_rc, add_sub_cancel_right]

/-- The place (r, c + r) of rule R172's first form. -/
theorem invShiftRows_rc_add (s : Block) (r c : Fin 4) : Block.rc (invShiftRows s) r (c + r) = Block.rc s r c := by
  rw [invShiftRows_rc, add_sub_cancel_right]

/-! The round key. -/

theorem addRoundKey_addRoundKey (s k : Block) : addRoundKey (addRoundKey s k) k = s :=
  Vector.ext fun p hp => by
    rw [getElem_addRoundKey, getElem_addRoundKey, BitVec.xor_assoc, BitVec.xor_self, BitVec.xor_zero]

/-! The column transforms. -/

/-- `gfMul_one_left` with the literal as `simp` writes it. -/
@[simp] theorem gfMul_ofNat_one_left (a : Byte) : gfMul 1#8 a = a := gfMul_one_left a

/-- Row r of the product of a matrix with a column, over GF(2^8). -/
def mulColumn (m : Fin 4 → Fin 4 → Byte) (v : Fin 4 → Byte) (r : Fin 4) : Byte :=
  gfMul (m r 0) (v 0) ^^^ gfMul (m r 1) (v 1) ^^^ gfMul (m r 2) (v 2) ^^^ gfMul (m r 3) (v 3)

/-- The product of two matrices over GF(2^8). -/
def mulMatrix (m n : Fin 4 → Fin 4 → Byte) (r j : Fin 4) : Byte := mulColumn m (fun i => n i j) r

/-- The identity matrix. -/
def identityMatrix (r j : Fin 4) : Byte := if r = j then 1 else 0

/-- Rule R173's matrix. -/
def mixMatrix (r j : Fin 4) : Byte := ![0x02, 0x03, 0x01, 0x01] (j - r)

/-- Rule R174's matrix. -/
def invMixMatrix (r j : Fin 4) : Byte := ![0x0E, 0x0B, 0x0D, 0x09] (j - r)

theorem mixColumns_rc_eq_mulColumn (s : Block) (r c : Fin 4) :
    Block.rc (mixColumns s) r c = mulColumn mixMatrix (Block.rc s · c) r := by
  obtain ⟨h0, h1, h2, h3⟩ := mixColumns_rc s c
  match r with
  | 0 => simp [h0, mulColumn, mixMatrix]
  | 1 => simp [h1, mulColumn, mixMatrix]
  | 2 => simp [h2, mulColumn, mixMatrix]
  | 3 => simp [h3, mulColumn, mixMatrix]

theorem invMixColumns_rc_eq_mulColumn (s : Block) (r c : Fin 4) :
    Block.rc (invMixColumns s) r c = mulColumn invMixMatrix (Block.rc s · c) r := by
  obtain ⟨h0, h1, h2, h3⟩ := invMixColumns_rc s c
  match r with
  | 0 => exact h0
  | 1 => exact h1
  | 2 => exact h2
  | 3 => exact h3

/-- The sixteen products of a row of m, a column of n and v are summed by rows of n on one side, by columns on the other. -/
theorem mulColumn_mulColumn (m n : Fin 4 → Fin 4 → Byte) (v : Fin 4 → Byte) (r : Fin 4) :
    mulColumn m (mulColumn n v) r = mulColumn (mulMatrix m n) v r := by
  simp only [mulColumn, mulMatrix, gfMul_xor_left, gfMul_xor_right, gfMul_assoc]
  ac_rfl

theorem mulColumn_identityMatrix (v : Fin 4 → Byte) (r : Fin 4) : mulColumn identityMatrix v r = v r := by
  match r with
  | 0 | 1 | 2 | 3 => simp [mulColumn, identityMatrix]

theorem mulMatrix_invMixMatrix_mixMatrix : mulMatrix invMixMatrix mixMatrix = identityMatrix := by decide

theorem mulMatrix_mixMatrix_invMixMatrix : mulMatrix mixMatrix invMixMatrix = identityMatrix := by decide

theorem invMixColumns_mixColumns (s : Block) : invMixColumns (mixColumns s) = s :=
  block_ext_rc fun r c => by
    simp only [invMixColumns_rc_eq_mulColumn, mixColumns_rc_eq_mulColumn]
    rw [mulColumn_mulColumn, mulMatrix_invMixMatrix_mixMatrix, mulColumn_identityMatrix]

theorem mixColumns_invMixColumns (s : Block) : mixColumns (invMixColumns s) = s :=
  block_ext_rc fun r c => by
    simp only [mixColumns_rc_eq_mulColumn, invMixColumns_rc_eq_mulColumn]
    rw [mulColumn_mulColumn, mulMatrix_mixMatrix_invMixMatrix, mulColumn_identityMatrix]

/-- Settles O27: the inverse lookup gives the place at which a permutation holds the byte. -/
theorem subbAndIsubbLookUpEveryByte : Obligations.SubbAndIsubbLookUpEveryByte := by
  unfold Obligations.SubbAndIsubbLookUpEveryByte
  intro s
  have hinv (p : Fin 16) : (invSubBytes s.sboxTable s.state)[p] = invSboxAt s.sboxTable s.state[p] :=
    getElem_invSubBytes s.sboxTable s.state p.val p.isLt
  refine ⟨⟨_, exec_subb s, onlyStateWritten_complete_setState _ s, fun p => ?_⟩,
    ⟨_, exec_isubb s, onlyStateWritten_complete_setState _ s, hinv, fun hb p => ?_⟩⟩
  · exact getElem_subBytes s.sboxTable s.state p.val p.isLt
  · exact (congrArg (sboxAt s.sboxTable) (hinv p)).trans (sboxAt_invSboxAt (sboxBijective_iff.1 hb) _)

/-- Settles O28: row 0 is the case r = 0 of the rotation. -/
theorem shrowsRotatesRowsLeft : Obligations.ShrowsRotatesRowsLeft := by
  unfold Obligations.ShrowsRotatesRowsLeft
  refine fun s => ⟨_, exec_shrows s, onlyStateWritten_complete_setState _ s, shiftRows_rc s.state, fun c => ?_⟩
  simpa [rc_eq_getElem] using shiftRows_rc s.state 0 c

/-- Settles O29: a difference of columns modulo 4 is the sum with 4 - r. -/
theorem ishrowsRotatesRowsRight : Obligations.IshrowsRotatesRowsRight := by
  unfold Obligations.IshrowsRotatesRowsRight
  refine ⟨fun s => ⟨_, exec_ishrows s, onlyStateWritten_complete_setState _ s, invShiftRows_rc_add s.state, fun r c => ?_⟩,
    invShiftRows_shiftRows, shiftRows_invShiftRows⟩
  simpa only [complete_state, setState_state, rc_eq_getElem, Fin.val_sub, Nat.add_comm (4 - r.val)] using
    invShiftRows_rc s.state r c

/-- Settles O30: each clause is one row of the transform. -/
theorem mixcolMultipliesEveryColumn : Obligations.MixcolMultipliesEveryColumn := by
  unfold Obligations.MixcolMultipliesEveryColumn
  refine fun s => ⟨_, exec_mixcol s, onlyStateWritten_complete_setState _ s, fun c => ?_⟩
  simpa [rc_eq_getElem, Nat.add_comm] using mixColumns_rc s.state c

/-- Settles O31: the products of the two matrices, in either order, are the identity. -/
theorem imixcolInvertsMixcol : Obligations.ImixcolInvertsMixcol := by
  unfold Obligations.ImixcolInvertsMixcol
  refine ⟨fun s => ⟨_, exec_imixcol s, onlyStateWritten_complete_setState _ s, fun c => ?_⟩,
    invMixColumns_mixColumns, mixColumns_invMixColumns⟩
  simpa [rc_eq_getElem, Nat.add_comm] using invMixColumns_rc s.state c

/-- Settles O32: a byte of the round key is by definition a byte of W. -/
theorem arkXorsTheRoundKey : Obligations.ArkXorsTheRoundKey := by
  unfold Obligations.ArkXorsTheRoundKey
  refine ⟨fun s r h hk => ⟨_, exec_ark_ok s h hk, onlyStateWritten_complete_setState _ s, ?_⟩, addRoundKey_addRoundKey⟩
  have hsum (p : Fin 16) : (addRoundKey s.state (roundKey s.w ⟨r, h⟩))[p] = s.state[p] ^^^ (roundKey s.w ⟨r, h⟩)[p] :=
    getElem_addRoundKey s.state _ p.val p.isLt
  have hkey (p : Fin 16) : (roundKey s.w ⟨r, h⟩)[p] = wordByte s.w[4 * r + p.val / 4] (p.val % 4) :=
    getElem_roundKey s.w p.val p.isLt ⟨r, h⟩
  exact ⟨hsum, fun p => (hsum p).trans (congrArg (s.state[p] ^^^ ·) (hkey p))⟩

end Sys2Proof.Machine
end

section
/-! PROOF. The two pipelines as the tables of rules R206 and R207 (44_pipeline.md). A pipeline performs the rows of its table one after
another, each writing one entry (O33 and O34). Row k + 1 of decrypt's undoes row 58 - k of encrypt's, which is rule R209 (O36). -/

namespace Sys2Proof.Machine

/-! The rows. -/

/-- KIND and ROUND, which say all that a step does. -/
abbrev TraceRow := StepKind × Fin 15

/-- What a step of a kind does to the working value, r being the index of the round key (rule R205). -/
def stepFunction (t : Vector Byte 256) (w : ExpandedKey) (kind : StepKind) (r : Fin 15) : Block → Block :=
  match kind with
  | .empty | .input | .output => id
  | .bitshift => bitshiftForward
  | .invBitshift => bitshiftInverse
  | .transpose | .invTranspose => transpose
  | .addRoundKey => (addRoundKey · (roundKey w r))
  | .subBytes => subBytes t
  | .invSubBytes => invSubBytes t
  | .shiftRows => shiftRows
  | .invShiftRows => invShiftRows
  | .mixColumns => mixColumns
  | .invMixColumns => invMixColumns

/-- The round key that a step of a kind records: ADD_ROUND_KEY's alone. -/
def stepKey (w : ExpandedKey) (kind : StepKind) (r : Fin 15) : Option Block :=
  if kind = .addRoundKey then some (roundKey w r) else none

/-- One step: the working value changed, then one emit. -/
def performStep (t : Vector Byte 256) (w : ExpandedKey) (p : Pipeline) (row : TraceRow) : Pipeline :=
  emit row.1 row.2.val (stepKey w row.1 row.2) { p with s := stepFunction t w row.1 row.2 p.s }

/-- The KIND and ROUND columns of rule R206's table. -/
def encryptSteps : List TraceRow :=
  ([(.input, 0), (.bitshift, 0), (.transpose, 0), (.addRoundKey, 0)] : List TraceRow) ++
  middleRounds.flatMap (fun r => ([(.subBytes, r), (.shiftRows, r), (.mixColumns, r), (.addRoundKey, r)] : List TraceRow)) ++
  ([(.subBytes, 14), (.shiftRows, 14), (.addRoundKey, 14), (.output, 0)] : List TraceRow)

/-- The KIND and ROUND columns of rule R207's table. -/
def decryptSteps : List TraceRow :=
  ([(.input, 0), (.addRoundKey, 14)] : List TraceRow) ++
  middleRounds.reverse.flatMap (fun r =>
    ([(.invShiftRows, r), (.invSubBytes, r), (.addRoundKey, r), (.invMixColumns, r)] : List TraceRow)) ++
  ([(.invShiftRows, 0), (.invSubBytes, 0), (.addRoundKey, 0), (.invTranspose, 0), (.invBitshift, 0), (.output, 0)] :
    List TraceRow)

/-- The table of a direction. -/
def stepsOf : Direction → List TraceRow
  | .enc => encryptSteps
  | .dec => decryptSteps

theorem stepsOf_length (d : Direction) : (stepsOf d).length = 60 := by cases d <;> rfl

/-- The four rows of each middle round of encrypt. -/
theorem encryptSteps_middleRound : ∀ r : Fin 15, 1 ≤ r.val → r.val ≤ 13 →
    encryptSteps[4 * r.val]? = some (.subBytes, r) ∧ encryptSteps[4 * r.val + 1]? = some (.shiftRows, r) ∧
    encryptSteps[4 * r.val + 2]? = some (.mixColumns, r) ∧ encryptSteps[4 * r.val + 3]? = some (.addRoundKey, r) := by
  decide

/-- The four rows of each middle round of decrypt. -/
theorem decryptSteps_middleRound : ∀ r : Fin 15, 1 ≤ r.val → r.val ≤ 13 →
    decryptSteps[2 + 4 * (13 - r.val)]? = some (.invShiftRows, r) ∧
    decryptSteps[3 + 4 * (13 - r.val)]? = some (.invSubBytes, r) ∧
    decryptSteps[4 + 4 * (13 - r.val)]? = some (.addRoundKey, r) ∧
    decryptSteps[5 + 4 * (13 - r.val)]? = some (.invMixColumns, r) := by
  decide

/-! A pipeline performs the rows of its table. -/

/-- A pipeline before its first step. -/
def emptyPipeline (block : Block) : Pipeline := { seq := 0, s := block, trace := Vector.ofFn fun _ => emptyEntry }

/-- The rows of a table performed on a block in order. -/
def runSteps (t : Vector Byte 256) (w : ExpandedKey) (rows : List TraceRow) (block : Block) : Pipeline :=
  rows.foldl (performStep t w) (emptyPipeline block)

theorem encrypt_eq_runSteps (t : Vector Byte 256) (block : Block) (key : Key) :
    encrypt t block key = runSteps t (keySchedule t key) encryptSteps block := by
  unfold encrypt
  generalize keySchedule t key = w
  rw [runSteps, encryptSteps, List.foldl_append, List.foldl_append, List.foldl_flatMap]
  rfl

theorem decrypt_eq_runSteps (t : Vector Byte 256) (block : Block) (key : Key) :
    decrypt t block key = runSteps t (keySchedule t key) decryptSteps block := by
  unfold decrypt
  generalize keySchedule t key = w
  rw [runSteps, decryptSteps, List.foldl_append, List.foldl_append, List.foldl_flatMap]
  rfl

theorem pipelineOf_eq_runSteps (d : Direction) (t : Vector Byte 256) (block : Block) (key : Key) :
    pipelineOf d t block key = runSteps t (keySchedule t key) (stepsOf d) block := by
  cases d with
  | enc => exact encrypt_eq_runSteps t block key
  | dec => exact decrypt_eq_runSteps t block key

variable {t : Vector Byte 256} {w : ExpandedKey} {rows : List TraceRow} {row : TraceRow} {block : Block}
  {p : Pipeline} {i : Nat}

/-! One step. -/

@[simp] theorem performStep_seq : (performStep t w p row).seq = p.seq + 1 := rfl

@[simp] theorem performStep_s : (performStep t w p row).s = stepFunction t w row.1 row.2 p.s := rfl

theorem performStep_trace (hi : i < 60) :
    (performStep t w p row).trace[i] =
      if p.seq = i then entryOf row.1 row.2.val (stepKey w row.1 row.2) (stepFunction t w row.1 row.2 p.s)
      else p.trace[i] :=
  emit_trace _ _ _ _ i hi

/-! The working value. -/

/-- The working value after the rows of a table, from a block. -/
def stateAfter (t : Vector Byte 256) (w : ExpandedKey) (rows : List TraceRow) (block : Block) : Block :=
  rows.foldl (fun s row => stepFunction t w row.1 row.2 s) block

theorem stateAfter_take_succ (h : rows[i]? = some row) :
    stateAfter t w (rows.take (i + 1)) block = stepFunction t w row.1 row.2 (stateAfter t w (rows.take i) block) := by
  rw [List.take_add_one, h, stateAfter, List.foldl_append]
  rfl

theorem runSteps_append_singleton :
    runSteps t w (rows ++ [row]) block = performStep t w (runSteps t w rows block) row :=
  List.foldl_concat ..

theorem runSteps_seq : (runSteps t w rows block).seq = rows.length := by
  induction rows using List.reverseRecOn with
  | nil => rfl
  | append_singleton rows row ih =>
    rw [runSteps_append_singleton, performStep_seq, ih, List.length_append, List.length_singleton]

theorem runSteps_s : (runSteps t w rows block).s = stateAfter t w rows block := by
  induction rows using List.reverseRecOn with
  | nil => rfl
  | append_singleton rows row ih =>
    rw [runSteps_append_singleton, performStep_s, ih, stateAfter, stateAfter, List.foldl_concat]

/-! The entries. -/

/-- The step of row i writes entry i, and no later step writes it again. -/
theorem runSteps_trace (hi : i < 60) (h : rows[i]? = some row) :
    (runSteps t w rows block).trace[i] =
      entryOf row.1 row.2.val (stepKey w row.1 row.2) (stateAfter t w (rows.take (i + 1)) block) := by
  induction rows using List.reverseRecOn with
  | nil => cases h
  | append_singleton rows last ih =>
    rw [stateAfter_take_succ h, runSteps_append_singleton, performStep_trace, runSteps_seq, runSteps_s]
    split
    next hlast =>
      subst hlast
      rw [List.getElem?_concat_length, Option.some.injEq] at h
      rw [h, List.take_left]
    next hne =>
      have hlt : i < rows.length := by
        have hle := (List.getElem?_eq_some_iff.1 h).1
        rw [List.length_append, List.length_singleton] at hle
        omega
      rw [List.getElem?_append_left hlt] at h
      rw [ih h, stateAfter_take_succ h, List.take_append_of_le_length hlt.le]

/-- The entry is the one that a row's step writes when the working value before it is `s`. -/
def Records (t : Vector Byte 256) (w : ExpandedKey) (row : TraceRow) (s : Block) (e : TraceEntry) : Prop :=
  e.kind = row.1 ∧ e.round = BitVec.ofNat 4 row.2.val ∧ e.hasrk = (stepKey w row.1 row.2).isSome ∧
  e.k = (stepKey w row.1 row.2).getD zeroBlock ∧ e.s = stepFunction t w row.1 row.2 s

theorem Records.s_eq {s : Block} {e : TraceEntry} (h : Records t w row s e) :
    e.s = stepFunction t w row.1 row.2 s := by
  obtain ⟨-, -, -, -, hs⟩ := h
  exact hs

/-- The first entry is that of the first row, from the block; each later entry is that of its row, from the entry before it; the
last entry holds the result. -/
structure FollowsTable (t : Vector Byte 256) (w : ExpandedKey) (rows : List TraceRow) (block : Block)
    (p : Pipeline) : Prop where
  first : ∀ row, rows[0]? = some row → Records t w row block p.trace[0]
  next : ∀ (i j : Nat) (hi : i < 60) (hij : i = j + 1) (row : TraceRow), rows[i]? = some row →
    Records t w row p.trace[j].s p.trace[i]
  result : ∀ (i : Nat) (hi : i < 60), rows.length = i + 1 → p.s = p.trace[i].s

theorem runSteps_followsTable : FollowsTable t w rows block (runSteps t w rows block) := by
  have hrecords (i : Nat) (hi : i < 60) (row) (h : rows[i]? = some row) :
      Records t w row (stateAfter t w (rows.take i) block) (runSteps t w rows block).trace[i] := by
    rw [runSteps_trace hi h, stateAfter_take_succ h]
    exact ⟨rfl, rfl, rfl, rfl, rfl⟩
  have hstate (i : Nat) (hi : i < 60) (hlt : i < rows.length) :
      (runSteps t w rows block).trace[i].s = stateAfter t w (rows.take (i + 1)) block := by
    rw [runSteps_trace hi (List.getElem?_eq_getElem hlt)]
    rfl
  refine ⟨fun row h => hrecords 0 (by decide) row h, ?next, ?result⟩
  case next =>
    rintro _ j hi rfl row h
    have hlt : j + 1 < rows.length := (List.getElem?_eq_some_iff.1 h).1
    rw [hstate j (by omega) (by omega)]
    exact hrecords (j + 1) hi row h
  case result =>
    intro i hi hlen
    rw [hstate i hi (by omega), runSteps_s, ← hlen, List.take_length]

theorem pipelineOf_followsTable (d : Direction) (t : Vector Byte 256) (block : Block) (key : Key) :
    FollowsTable t (keySchedule t key) (stepsOf d) block (pipelineOf d t block key) :=
  pipelineOf_eq_runSteps d t block key ▸ runSteps_followsTable

/-- Settles O33: each clause is the row of encrypt's table that its index names. -/
theorem encWritesTheWholeTrace : Obligations.EncWritesTheWholeTrace := by
  unfold Obligations.EncWritesTheWholeTrace
  intro s
  refine ⟨_, exec_enc s, ?_⟩
  rw [pipelineResult_eq]
  have htable := pipelineOf_followsTable .enc s.sboxTable s.state s.key
  generalize pipelineOf .enc s.sboxTable s.state s.key = p at htable ⊢
  generalize keySchedule s.sboxTable s.key = w at htable ⊢
  obtain ⟨hfirst, hnext, hresult⟩ := htable
  refine ⟨rfl, hfirst _ rfl, hnext 1 0 (by decide) rfl _ rfl, hnext 2 1 (by decide) rfl _ rfl, hnext 3 2 (by decide) rfl _ rfl,
    fun r hlo hhi => ?rounds, hnext 56 55 (by decide) rfl _ rfl, hnext 57 56 (by decide) rfl _ rfl,
    hnext 58 57 (by decide) rfl _ rfl, hnext 59 58 (by decide) rfl _ rfl, hresult 59 (by decide) rfl⟩
  case rounds =>
    obtain ⟨h0, h1, h2, h3⟩ := encryptSteps_middleRound r hlo hhi
    exact ⟨hnext _ _ (by omega) (by omega) _ h0, hnext _ _ (by omega) rfl _ h1, hnext _ _ (by omega) rfl _ h2,
      hnext _ _ (by omega) rfl _ h3⟩

/-- Settles O34: each clause is the row of decrypt's table that its index names. -/
theorem decWritesTheWholeTrace : Obligations.DecWritesTheWholeTrace := by
  unfold Obligations.DecWritesTheWholeTrace
  intro s
  refine ⟨_, exec_dec s, ?_⟩
  rw [pipelineResult_eq]
  have htable := pipelineOf_followsTable .dec s.sboxTable s.state s.key
  generalize pipelineOf .dec s.sboxTable s.state s.key = p at htable ⊢
  generalize keySchedule s.sboxTable s.key = w at htable ⊢
  obtain ⟨hfirst, hnext, hresult⟩ := htable
  refine ⟨rfl, hfirst _ rfl, hnext 1 0 (by decide) rfl _ rfl, fun r hlo hhi => ?rounds, hnext 54 53 (by decide) rfl _ rfl,
    hnext 55 54 (by decide) rfl _ rfl, hnext 56 55 (by decide) rfl _ rfl, hnext 57 56 (by decide) rfl _ rfl,
    hnext 58 57 (by decide) rfl _ rfl, hnext 59 58 (by decide) rfl _ rfl, hresult 59 (by decide) rfl⟩
  case rounds =>
    obtain ⟨h0, h1, h2, h3⟩ := decryptSteps_middleRound r hlo hhi
    exact ⟨hnext _ _ (by omega) (by omega) _ h0, hnext _ _ (by omega) (by omega) _ h1, hnext _ _ (by omega) (by omega) _ h2,
      hnext _ _ (by omega) (by omega) _ h3⟩

/-! Decrypt undoes encrypt. -/

theorem invSubBytes_subBytes (ht : Function.Bijective (sboxAt t)) (s : Block) : invSubBytes t (subBytes t s) = s :=
  Vector.ext fun p hp => by rw [getElem_invSubBytes, getElem_subBytes, invSboxAt_sboxAt ht]

theorem subBytes_invSubBytes (ht : Function.Bijective (sboxAt t)) (s : Block) : subBytes t (invSubBytes t s) = s :=
  Vector.ext fun p hp => by rw [getElem_subBytes, getElem_invSubBytes, sboxAt_invSboxAt ht]

/-- The kind whose step undoes a kind's. -/
def inverseKind : StepKind → StepKind
  | .empty => .empty
  | .input => .input
  | .output => .output
  | .bitshift => .invBitshift
  | .invBitshift => .bitshift
  | .transpose => .invTranspose
  | .invTranspose => .transpose
  | .addRoundKey => .addRoundKey
  | .subBytes => .invSubBytes
  | .invSubBytes => .subBytes
  | .shiftRows => .invShiftRows
  | .invShiftRows => .shiftRows
  | .mixColumns => .invMixColumns
  | .invMixColumns => .mixColumns

/-- A row undoes another: the inverse kind, and for ADD_ROUND_KEY the same round key. -/
abbrev Undoes (row row' : TraceRow) : Prop :=
  row.1 = inverseKind row'.1 ∧ (row'.1 = .addRoundKey → row.2 = row'.2)

theorem stepFunction_of_undoes {row' : TraceRow} (ht : Function.Bijective (sboxAt t)) (h : Undoes row row')
    (s : Block) : stepFunction t w row.1 row.2 (stepFunction t w row'.1 row'.2 s) = s := by
  obtain ⟨kind, r⟩ := row
  obtain ⟨kind', r'⟩ := row'
  obtain ⟨rfl, hround⟩ : kind = inverseKind kind' ∧ (kind' = .addRoundKey → r = r') := h
  cases kind' with
  | empty | input | output => rfl
  | bitshift => exact bitshiftInverse_bitshiftForward s
  | invBitshift => exact bitshiftForward_bitshiftInverse s
  | transpose | invTranspose => exact transpose_transpose s
  | addRoundKey =>
    rw [hround rfl]
    exact addRoundKey_addRoundKey s _
  | subBytes => exact invSubBytes_subBytes ht s
  | invSubBytes => exact subBytes_invSubBytes ht s
  | shiftRows => exact invShiftRows_shiftRows s
  | invShiftRows => exact shiftRows_invShiftRows s
  | mixColumns => exact invMixColumns_mixColumns s
  | invMixColumns => exact mixColumns_invMixColumns s

/-- Row k + 1 of decrypt undoes row 58 - k of encrypt, for k below 58. -/
theorem decryptSteps_undo_encryptSteps : ∀ k : Fin 58,
    Undoes ((stepsOf .dec)[k.val + 1]'(by rw [stepsOf_length]; omega))
      ((stepsOf .enc)[58 - k.val]'(by rw [stepsOf_length]; omega)) := by
  decide

section Mirror

variable {e d : Pipeline} (ht : Function.Bijective (sboxAt t)) (he : FollowsTable t w (stepsOf .enc) block e)
  (hd : FollowsTable t w (stepsOf .dec) e.s d)

include ht he hd

/-- Each State of decrypt's trace is that of encrypt's, read backward from entry 58. -/
theorem trace_mirror (k : Nat) (hk : k ≤ 58) : d.trace[k].s = e.trace[58 - k].s := by
  induction k with
  | zero =>
    have hinput : d.trace[0].s = e.s := (hd.first _ rfl).s_eq
    have houtput : e.trace[59].s = e.trace[58].s := (he.next 59 58 (by decide) rfl _ rfl).s_eq
    exact hinput.trans ((he.result 59 (by decide) rfl).trans houtput)
  | succ k ih =>
    have hrow := decryptSteps_undo_encryptSteps ⟨k, by omega⟩
    have hdec := hd.next (k + 1) k (by omega) rfl _ (List.getElem?_eq_getElem (by rw [stepsOf_length]; omega))
    have henc := he.next (58 - k) (58 - (k + 1)) (by omega) (by omega) _
      (List.getElem?_eq_getElem (by rw [stepsOf_length]; omega))
    rw [hdec.s_eq, ih (by omega), henc.s_eq]
    exact stepFunction_of_undoes ht hrow _

/-- OUTPUT repeats entry 58, which is the State of encrypt's INPUT. -/
theorem trace_mirror_output : d.trace[59].s = e.trace[0].s :=
  (hd.next 59 58 (by decide) rfl _ rfl).s_eq.trans (trace_mirror ht he hd 58 le_rfl)

theorem decrypt_result_eq_block : d.s = block :=
  (hd.result 59 (by decide) rfl).trans ((trace_mirror_output ht he hd).trans (he.first _ rfl).s_eq)

end Mirror

/-- Settles O36: the two traces follow tables of which the second undoes the first from its end. -/
theorem decryptUndoesEncryptAndMirrorsItsTrace : Obligations.DecryptUndoesEncryptAndMirrorsItsTrace := by
  unfold Obligations.DecryptUndoesEncryptAndMirrorsItsTrace
  have he := pipelineOf_followsTable .enc
  have hd := pipelineOf_followsTable .dec
  have hround (t block key) (ht : sboxBijective t = true) : (decrypt t (encrypt t block key).s key).s = block :=
    decrypt_result_eq_block (sboxBijective_iff.1 ht) (he t block key) (hd t _ key)
  refine ⟨fun t block key ht => ⟨hround t block key ht, ?_, ?_⟩, fun s ht => ⟨_, _, exec_enc s, exec_dec _, ?_⟩⟩
  · exact trace_mirror (sboxBijective_iff.1 ht) (he t block key) (hd t _ key)
  · exact trace_mirror_output (sboxBijective_iff.1 ht) (he t block key) (hd t _ key)
  · rw [pipelineResult_eq, pipelineResult_eq]
    exact hround s.sboxTable s.state s.key ht

end Sys2Proof.Machine
end

section
/-! PROOF. The host's codec, byte by byte (O57). -/

namespace Sys2Proof.Machine

theorem getElem_blockOfBytes (bytes : List Byte) (p : Nat) (h : p < 16) : (blockOfBytes bytes)[p] = bytes.getD p 0 :=
  Vector.getElem_ofFn h

theorem stateToText_length (b : Block) : (stateToText b).length = 16 := by
  rw [stateToText, List.length_map, Vector.length_toList]

theorem getElem?_stateToText (b : Block) (p : Nat) (h : p < 16) : (stateToText b)[p]? = some (Config.decodeByte b[p]) := by
  rw [stateToText, List.getElem?_map, Vector.getElem?_toList, Vector.getElem?_eq_getElem h, Option.map_some]

/-- Settles O57: `textToState` is by definition the block of the text's bytes. -/
theorem codecPadsAndTruncates : Obligations.CodecPadsAndTruncates := by
  unfold Obligations.CodecPadsAndTruncates
  refine ⟨fun _ => rfl, fun bytes p => ⟨fun h => ?within, fun h => ?beyond⟩,
    fun b => ⟨stateToText_length b, fun p => getElem?_stateToText b p.val p.isLt⟩⟩
  case within => exact (getElem_blockOfBytes bytes p.val p.isLt).trans (List.getD_eq_getElem bytes 0 h)
  case beyond => exact (getElem_blockOfBytes bytes p.val p.isLt).trans (List.getD_eq_default bytes 0 h)

end Sys2Proof.Machine
end

section
/-! PROOF. How the Engine step ends (60_exceptions.md): every command completes and keeps what is not its own (O10), an error is
reported by the error entry alone (O7 and O8). -/

namespace Sys2Proof.Machine

variable {s t : State} {i : Instr}

/-! Commands. -/

theorem exec_next (i : Instr) (s : State) : ∃ t, exec i s = .next t := by
  rcases exec_cases i s with ⟨_, _, _, _, h⟩ | h | ⟨_, _, h⟩ | ⟨_, _, h⟩ | ⟨_, h⟩ | ⟨_, _, h⟩ <;> exact ⟨_, h⟩

theorem exec_keeps_ovr (h : exec i s = .next t) : t.status.ovr = s.status.ovr := by
  rcases exec_cases i s with ⟨_, _, _, _, he⟩ | he | ⟨_, _, he⟩ | ⟨_, _, he⟩ | ⟨_, he⟩ | ⟨_, _, he⟩ <;>
    (rw [he] at h; cases h; rfl)

/-- A command is ARK ended in the error entry, or it leaves ERR and ERRCODE. -/
theorem exec_error_cases (h : exec i s = .next t) :
    (∃ r code, code ≠ .none ∧ i = .ark r ∧ t = raiseCmdError code s) ∨
    (t.status.err = s.status.err ∧ t.status.errcode = s.status.errcode) := by
  rcases exec_cases i s with ⟨r, code, hcode, hi, he⟩ | he | ⟨_, _, he⟩ | ⟨_, _, he⟩ | ⟨_, he⟩ | ⟨_, _, he⟩
  case inl =>
    rw [he] at h
    cases h
    exact .inl ⟨r, code, by rcases hcode with rfl | rfl <;> decide, hi, rfl⟩
  all_goals rw [he] at h; cases h; exact .inr ⟨rfl, rfl⟩

/-- Settles O10: the completion, the frame, and ARK as the one command with an error entry. -/
theorem everyCommandCompletesAndKeepsTheRest : Obligations.EveryCommandCompletesAndKeepsTheRest := by
  unfold Obligations.EveryCommandCompletesAndKeepsTheRest
  intro i s
  obtain ⟨t, h⟩ := exec_next i s
  obtain ⟨hbusy, hdone⟩ := exec_completes h
  have hflags (hark : ∀ r, i ≠ .ark r) : t.status.err = s.status.err ∧ t.status.errcode = s.status.errcode := by
    obtain ⟨r, _, _, hi, _⟩ | hkept := exec_error_cases h
    · exact absurd hi (hark r)
    · exact hkept
  refine ⟨t, h, hbusy, hdone, exec_keeps_ovr h, ?frame⟩
  case frame =>
    rw [exec_frame h]
    exact ⟨rfl, rfl, rfl, rfl, rfl, rfl, rfl, rfl, rfl, hflags⟩

/-! The Engine step. -/

/-- Settles O7: taking the turn off leaves CMD, so the Engine step finds the word that does not decode. -/
theorem stepReportsAnIllegalWord : Obligations.StepReportsAnIllegalWord := by
  unfold Obligations.StepReportsAnIllegalWord
  intro s u e h hd
  have hcmd : u.cmd = s.cmd := by
    obtain ⟨-, -, -, rfl⟩ := h
    rfl
  exact ⟨_, (step_of_engineIsNext h).trans (engineStep_error (hcmd ▸ hd)), onlyErrorReported_raiseCmdError ..⟩

/-- An Engine step ends in the error entry, or leaves ERR. -/
theorem engineStep_error_cases (h : engineStep s = .next t) :
    (∃ code, code ≠ .none ∧ t = raiseCmdError code s) ∨ t.status.err = s.status.err := by
  cases hd : decode s.cmd with
  | error e =>
    rw [engineStep_error hd] at h
    cases h
    exact .inl ⟨_, by decide, rfl⟩
  | ok i =>
    rw [engineStep_ok hd] at h
    obtain ⟨_, code, hcode, _, rfl⟩ | ⟨herr, _⟩ := exec_error_cases h
    · exact .inl ⟨code, hcode, rfl⟩
    · exact .inr herr

/-- Settles O8: only the error entry raises ERR, and it writes STATUS alone. -/
theorem errorEntryKeepsTheFirstError : Obligations.ErrorEntryKeepsTheFirstError := by
  unfold Obligations.ErrorEntryKeepsTheFirstError
  refine ⟨fun s t h hbefore hafter => ?precise, fun code s => ⟨fun herr => ⟨rfl, if_neg (by simp [herr])⟩,
    fun herr => ⟨rfl, if_pos herr⟩, rfl, rfl, rfl, rfl, rfl, rfl, rfl, rfl, rfl, rfl, rfl, rfl, rfl, rfl, rfl,
    fun hie => (irq_iff _).2 (.inr ⟨rfl, hie⟩)⟩⟩
  case precise =>
    obtain hentry | hkept := engineStep_error_cases h
    · exact hentry
    · rw [hkept, hbefore] at hafter
      cases hafter

end Sys2Proof.Machine
end

section
/-! PROOF. The elementary commands perform the rows of the pipelines' tables between INPUT and OUTPUT (O38, 60_exceptions.md rule
R254). -/

namespace Sys2Proof.Machine

variable {s : State}

/-- The command that performs a row on STATE; a row that only records it is a NOP. -/
def elementaryCommand (row : TraceRow) : Instr :=
  match row.1 with
  | .empty | .input | .output => .nop
  | .bitshift => .bsf
  | .invBitshift => .bsi
  | .transpose | .invTranspose => .trn
  | .addRoundKey => .ark row.2.val
  | .subBytes => .subb
  | .invSubBytes => .isubb
  | .shiftRows => .shrows
  | .invShiftRows => .ishrows
  | .mixColumns => .mixcol
  | .invMixColumns => .imixcol

/-- With valid round keys a row's command does to STATE what its step does to the working value. -/
theorem exec_elementaryCommand (row : TraceRow) (hk : s.status.rkvalid = true) :
    exec (elementaryCommand row) s =
      .next (complete (setState (stepFunction s.sboxTable s.w row.1 row.2 s.state) s)) := by
  obtain ⟨kind, r⟩ := row
  cases kind with
  | addRoundKey => exact exec_ark_ok s r.isLt hk
  | empty | input | output | bitshift | transpose | subBytes | shiftRows | mixColumns | invSubBytes | invShiftRows
  | invMixColumns | invTranspose | invBitshift => rfl

theorem performAll_cons {i : Instr} {is : List Instr} {t : State} (h : exec i s = .next t) :
    performAll (i :: is) s = performAll is t := by
  rw [performAll, h]

/-- Commands of rows, one after another, leave STATE as the working value after the rows. -/
theorem performAll_map_elementaryCommand (rows : List TraceRow) (s : State) (hk : s.status.rkvalid = true) :
    ∃ t, performAll (rows.map elementaryCommand) s = some t ∧ t.state = stateAfter s.sboxTable s.w rows s.state := by
  induction rows generalizing s with
  | nil => exact ⟨s, rfl, rfl⟩
  | cons row rows ih =>
    rw [List.map_cons, performAll_cons (exec_elementaryCommand row hk)]
    exact ih _ hk

/-- The elementary commands of a direction. -/
def commandsOf : Direction → List Instr
  | .enc => encryptCommands
  | .dec => decryptCommands

/-- The rows of a direction between INPUT and OUTPUT. -/
def innerSteps (d : Direction) : List TraceRow := (stepsOf d).tail.dropLast

theorem innerSteps_length (d : Direction) : (innerSteps d).length = 58 := by
  simp [innerSteps, stepsOf_length]

theorem stepsOf_eq_innerSteps (d : Direction) : stepsOf d = (.input, 0) :: (innerSteps d ++ [(.output, 0)]) := by
  cases d <;> rfl

theorem commandsOf_eq_map_innerSteps (d : Direction) : commandsOf d = (innerSteps d).map elementaryCommand := by
  cases d <;> rfl

/-- Entry m of a trace holds the working value after the first m rows between INPUT and OUTPUT. -/
theorem pipelineOf_trace_eq_stateAfter (d : Direction) (t : Vector Byte 256) (block : Block) (key : Key) (m : Nat)
    (hm : m ≤ 58) :
    (pipelineOf d t block key).trace[m].s = stateAfter t (keySchedule t key) ((innerSteps d).take m) block := by
  have hrow : (stepsOf d)[m]? = some _ := List.getElem?_eq_getElem (by rw [stepsOf_length]; omega)
  have htake : (stepsOf d).take (m + 1) = (.input, 0) :: (innerSteps d).take m := by
    rw [stepsOf_eq_innerSteps, List.take_succ_cons, List.take_append_of_le_length (by rw [innerSteps_length]; exact hm)]
  rw [pipelineOf_eq_runSteps, runSteps_trace (by omega) hrow, htake]
  rfl

/-- OUTPUT repeats entry 58, so a pipeline's result is that entry's State. -/
theorem pipelineOf_s_eq_trace (d : Direction) (t : Vector Byte 256) (block : Block) (key : Key) :
    (pipelineOf d t block key).s = (pipelineOf d t block key).trace[58].s := by
  have htable := pipelineOf_followsTable d t block key
  have hrow : (stepsOf d)[59]? = some (.output, 0) := by cases d <;> rfl
  exact (htable.result 59 (by decide) (stepsOf_length d)).trans (htable.next 59 58 (by decide) rfl _ hrow).s_eq

section ValidRoundKeys

variable (hk : s.status.rkvalid = true) (hw : s.w = keySchedule s.sboxTable s.key)

include hk hw

theorem performAll_take_commandsOf (d : Direction) (m : Nat) (hm : m ≤ 58) :
    ∃ t, performAll ((commandsOf d).take m) s = some t ∧
      t.state = (pipelineOf d s.sboxTable s.state s.key).trace[m].s := by
  rw [commandsOf_eq_map_innerSteps, ← List.map_take, pipelineOf_trace_eq_stateAfter d _ _ _ m hm, ← hw]
  exact performAll_map_elementaryCommand _ s hk

theorem performAll_commandsOf (d : Direction) :
    ∃ t, performAll (commandsOf d) s = some t ∧ t.state = (pipelineResult d s).state := by
  have hall : (commandsOf d).take 58 = commandsOf d :=
    List.take_of_length_le (by rw [commandsOf_eq_map_innerSteps, List.length_map, innerSteps_length])
  have hstate : (pipelineResult d s).state = (pipelineOf d s.sboxTable s.state s.key).trace[58].s :=
    pipelineOf_s_eq_trace ..
  rw [hstate, ← hall]
  exact performAll_take_commandsOf hk hw d 58 le_rfl

end ValidRoundKeys

/-- Settles O38: each direction's commands are those of its table's rows. -/
theorem elementaryCommandsReproduceThePipelines : Obligations.ElementaryCommandsReproduceThePipelines := by
  unfold Obligations.ElementaryCommandsReproduceThePipelines
  intro s hk hw
  obtain ⟨t, ht, hstate⟩ := performAll_commandsOf hk hw .enc
  obtain ⟨t', ht', hstate'⟩ := performAll_commandsOf hk hw .dec
  exact ⟨performAll_take_commandsOf hk hw .enc, performAll_take_commandsOf hk hw .dec, ⟨t, _, ht, exec_enc s, hstate⟩,
    ⟨t', _, ht', exec_dec s, hstate'⟩⟩

end Sys2Proof.Machine
end

section
/-! PROOF. A command in flight completes by the Engine's step within the schedule, or a reset write abandons it (O56). The turns before
the Engine's are the Host's, which leave the command as it is, and releases of RST. -/

namespace Sys2Proof.Machine

variable {s t u : State}

/-- `t` holds the command of `s` and its operands. -/
def SameCommand (s t : State) : Prop :=
  t.cmd = s.cmd ∧ t.state = s.state ∧ t.key = s.key ∧ t.w = s.w ∧ t.status.rkvalid = s.status.rkvalid ∧
    t.sboxTable = s.sboxTable

theorem SameCommand.trans (h : SameCommand s t) (h' : SameCommand t u) : SameCommand s u := by
  obtain ⟨hcmd, hstate, hkey, hw, hrk, htable⟩ := h
  obtain ⟨hcmd', hstate', hkey', hw', hrk', htable'⟩ := h'
  exact ⟨hcmd'.trans hcmd, hstate'.trans hstate, hkey'.trans hkey, hw'.trans hw, hrk'.trans hrk, htable'.trans htable⟩

/-! One turn. -/

theorem hostTurn_hostOps_subset (h : hostTurn s = .next t) : t.hostOps ⊆ s.hostOps := by
  unfold hostTurn at h
  split at h
  next => cases h; exact List.Subset.refl _
  next op rest hops =>
    obtain ⟨-, hsub, -, -⟩ := hostAccess_frame h
    exact hops ▸ hsub

/-- A turn of the Host's while BUSY = 1 keeps the command in flight, or is a reset write. -/
theorem hostTurn_of_busy (hb : s.status.busy = true) (h : hostTurn s = .next t) :
    (SameCommand s t ∧ t.status.busy = true ∧ t.turns = s.turns ∧ t.hostOps ⊆ s.hostOps) ∨
    ((∃ op ∈ s.hostOps, op.resets = true) ∧ t.status.busy = false) := by
  obtain ⟨v, rest, hops, hv, rfl⟩ | ⟨-, hbusy, hcmd, hstate, hkey, hw, -, -, hrk, -, -, htable, -, hturns⟩ :=
    hostCannotDisturbTheCommandInFlight s t hb h
  · exact .inr ⟨⟨.wr 0x008 4 v, by simp [hops], by simpa [HostOp.resets] using hv⟩, rfl⟩
  · exact .inl ⟨⟨hcmd, hstate, hkey, hw, hrk, htable⟩, hbusy, hturns, hostTurn_hostOps_subset h⟩

section Scheduled

variable {ts : List Turn} (htable : sboxBijective s.sboxTable = true)

include htable

theorem step_of_turns_host (hturns : s.turns = .host :: ts) : step s = hostTurn { s with turns := ts } := by
  simp only [step, runTurn, htable, hturns, if_true]

theorem step_of_turns_rst {level : Bool} (hturns : s.turns = .rst level :: ts) :
    step s = rstTurn level { s with turns := ts } := by
  simp only [step, runTurn, htable, hturns, if_true]

end Scheduled

theorem Safe.exists_engineIsNext (hs : Safe s) (hb : s.status.busy = true)
    (hturns : (∃ ts, s.turns = .engine :: ts) ∨ s.turns = []) : ∃ u, EngineIsNext s u ∧ SameCommand s u := by
  obtain ⟨htable, -, -, -⟩ := hs
  exact ⟨_, ⟨htable, hturns, hb, rfl⟩, rfl, rfl, rfl, rfl, rfl, rfl⟩

/-- From a safe state with a command in flight whose schedule is not over and does not name the Engine, a step takes one turn off and
keeps the command, or a reset write abandons it. -/
theorem Safe.step_keeps_command_or_resets {turn : Turn} {ts : List Turn} (hs : Safe s) (hb : s.status.busy = true)
    (hturns : s.turns = turn :: ts) (hturn : turn ≠ .engine) (h : step s = .next t) :
    (SameCommand s t ∧ t.status.busy = true ∧ t.turns = ts ∧ t.hostOps ⊆ s.hostOps) ∨
    ((∃ op ∈ s.hostOps, op.resets = true) ∧ t.status.busy = false) := by
  obtain ⟨htable, -, -, hnoReset⟩ := hs
  cases turn with
  | engine => exact absurd rfl hturn
  | host =>
    rw [step_of_turns_host htable hturns] at h
    exact hostTurn_of_busy (s := { s with turns := ts }) hb h
  | rst level =>
    cases level with
    | true => exact absurd (hturns ▸ List.mem_cons_self) hnoReset
    | false =>
      rw [step_of_turns_rst htable hturns] at h
      cases h
      exact .inl ⟨⟨rfl, rfl, rfl, rfl, rfl, rfl⟩, hb, rfl, List.Subset.refl _⟩

/-! The schedule. -/

/-- The state comes, within the schedule, to where the Engine is to move on the same command, or a reset write has abandoned it. -/
theorem Safe.run_reaches_engine_or_reset (hs : Safe s) (hb : s.status.busy = true) :
    ∃ (n : Nat) (t : State), n ≤ s.turns.length ∧ Sys2Proof.core.run n s = .next t ∧
      ((∃ u, EngineIsNext t u ∧ SameCommand s u) ∨
        ((∃ op ∈ s.hostOps, op.resets = true) ∧ t.status.busy = false)) := by
  induction hturns : s.turns generalizing s with
  | nil => exact ⟨0, s, le_rfl, rfl, .inl (hs.exists_engineIsNext hb (.inr hturns))⟩
  | cons turn ts ih =>
    by_cases hturn : turn = .engine
    · exact ⟨0, s, Nat.zero_le _, rfl, .inl (hs.exists_engineIsNext hb (.inl ⟨ts, hturn ▸ hturns⟩))⟩
    obtain ⟨t, hstep, hsafe⟩ := safeStatesStepToSafeStates s hs
    obtain ⟨hsame, hbusy, hts, hops⟩ | hreset := hs.step_keeps_command_or_resets hb hturns hturn hstep
    · obtain ⟨n, v, hn, hrun, hend⟩ := ih hsafe hbusy hts
      refine ⟨n + 1, v, Nat.succ_le_succ hn, (run_succ n hstep).trans hrun, ?_⟩
      obtain ⟨u, hnext, hsame'⟩ | ⟨⟨op, hop, hresets⟩, hidle⟩ := hend
      · exact .inl ⟨u, hnext, hsame.trans hsame'⟩
      · exact .inr ⟨⟨op, hops hop, hresets⟩, hidle⟩
    · exact ⟨1, t, Nat.succ_le_succ (Nat.zero_le _), run_succ 0 hstep, .inr hreset⟩

/-- A run of one step more, by a step at its end. -/
theorem run_succ_of_step {n : Nat} (hrun : Sys2Proof.core.run n s = .next t) (hstep : step t = .next u) :
    Sys2Proof.core.run (n + 1) s = .next u := by
  induction n generalizing s with
  | zero =>
    cases hrun
    exact run_succ 0 hstep
  | succ n ih =>
    cases hs : step s with
    | next s' => exact (run_succ _ hs).trans (ih ((run_succ n hs).symm.trans hrun))
    | fault r | refused r => simp [Host.Core.run, Sys2Proof.core, hs] at hrun

/-- Settles O56: where the run comes to the Engine, its step completes the command; without a reset write it always does. -/
theorem commandInFlightCompletesWithinTheSchedule : Obligations.CommandInFlightCompletesWithinTheSchedule := by
  unfold Obligations.CommandInFlightCompletesWithinTheSchedule
  refine ⟨fun s hs hb hnoReset => ?completes, fun s hs hb => ?falls⟩
  case completes =>
    obtain ⟨n, t, hn, hrun, ⟨u, hnext, hcmd, hstate, hkey, hw, hrk, htable⟩ | ⟨⟨op, hop, hresets⟩, -⟩⟩ :=
      hs.run_reaches_engine_or_reset hb
    · obtain ⟨v, hv, hbusy, hdone⟩ := engineStep_completes u
      have hstep := step_of_engineIsNext hnext
      exact ⟨n, t, u, v, hn, hrun, hnext, hcmd, hstate, hkey, hw, hrk, htable, hstep, hstep.trans hv, hbusy, hdone⟩
    · rw [hnoReset op hop] at hresets
      cases hresets
  case falls =>
    obtain ⟨n, t, hn, hrun, ⟨u, hnext, -⟩ | ⟨-, hidle⟩⟩ := hs.run_reaches_engine_or_reset hb
    · obtain ⟨v, hv, hbusy, -⟩ := engineStep_completes u
      exact ⟨n + 1, v, Nat.succ_le_succ hn, run_succ_of_step hrun ((step_of_engineIsNext hnext).trans hv), hbusy⟩
    · exact ⟨n, t, hn.trans (Nat.le_succ _), hrun, hidle⟩

end Sys2Proof.Machine
end

section
/-! PROOF. Reset (70_reset_and_hazards.md section 1): its two sources and the access refused while RST is asserted (O41), and two
commands performed in the reset state (O40). -/

namespace Sys2Proof.Machine

variable {s u : State} {op : HostOp} {off n : Nat} {v : Word}

/-! Accesses while RST is asserted. -/

theorem HostIsNext.rst_eq (h : HostIsNext op s u) : u.rst = s.rst := by
  obtain ⟨-, -, -, rfl⟩ := h
  rfl

theorem hostAccess_rd_of_rst (hr : s.rst = true) (ho : off < windowSize) :
    hostAccess (.rd off n) s = .fault (.busErrorRead off n 0) := by
  simp [hostAccess, hr, Nat.not_le.2 ho]

theorem hostAccess_wr_of_rst (hr : s.rst = true) (ho : off < windowSize) :
    hostAccess (.wr off n v) s = .fault (.busErrorWrite off n) := by
  simp [hostAccess, hr, Nat.not_le.2 ho]

/-- Settles O41: a CTRL write with bit 31 and the turn that asserts RST both perform Reset(), whose registers are those of
`State.reset`, and the Host's step looks at RST before it reads or writes. -/
theorem bothResetSourcesReset : Obligations.BothResetSourcesReset := by
  unfold Obligations.BothResetSourcesReset
  refine ⟨fun s u v h hr hv => ?ctrlWrite, fun s ts htable hturns => ?rstInput, fun u => ?registers,
    fun s u off n h hr ho => ?read, fun s u off n v h hr ho => ?write⟩
  case ctrlWrite => rw [step_of_write h hr (by decide) (by decide), regAt_ctrl, memWrite_ctrl_reset hv]
  case rstInput => exact step_of_turns_rst htable hturns
  case registers =>
    obtain ⟨hcmd, -, -, -, -, -, -, -, -, hstatus, hctrl, hirq, hresult, -⟩ := resetLeavesEveryRegisterZero
    exact ⟨hcmd, hstatus, hctrl, hresult, rfl, rfl, rfl, rfl, rfl, hirq, rfl⟩
  case read => rw [step_of_hostIsNext h, hostAccess_rd_of_rst (h.rst_eq.trans hr) ho]
  case write => rw [step_of_hostIsNext h, hostAccess_wr_of_rst (h.rst_eq.trans hr) ho]

/-! Commands in the reset state. -/

/-- Encrypt's working value at its end, for the all-zero block under the all-zero key and the default table (V-E2). -/
theorem encrypt_reset_s_toList :
    (encrypt State.reset.sboxTable State.reset.state State.reset.key).s.toList =
      [0xDC, 0x95, 0xC0, 0x78, 0xA2, 0x40, 0x89, 0x89, 0xAD, 0x48, 0xA2, 0x14, 0x92, 0x84, 0x20, 0x87] := by
  decide +kernel

/-- Settles O40: ENC's STATE is encrypt's value, and RKVALID, for which ARK asks, is 0 at reset. -/
theorem resetStateRunsEncAndRefusesArk : Obligations.ResetStateRunsEncAndRefusesArk := by
  unfold Obligations.ResetStateRunsEncAndRefusesArk
  refine ⟨⟨_, exec_enc _, ?ciphertext⟩, fun r hlt => ⟨_, exec_ark_noKey _ hlt rfl, onlyErrorReported_raiseCmdError ..⟩⟩
  case ciphertext =>
    rw [pipelineResult_eq]
    exact encrypt_reset_s_toList

end Sys2Proof.Machine
end

section

/-! PROOF. The spec's words decode to their commands (O5): each is the encoding of its command, and decode after encode is the
identity (O1). -/

namespace Sys2Proof.Machine

/-- A word given in numerals decodes to a well-formed command when it is that command's encoding. -/
theorem decode_eq_ok_of_encode {c : Word} {i : Instr} (henc : encode i = c) (hwf : i.wellFormed = true) :
    decode c = .ok i :=
  henc ▸ decode_encode hwf

/-- Settles O5: the twelve words are the encodings of their commands, and each command is well formed, ARK with R = 15 too. -/
theorem specWordsDecodeToTheirCommands : Obligations.SpecWordsDecodeToTheirCommands := by
  unfold Obligations.SpecWordsDecodeToTheirCommands
  and_intros <;> exact decode_eq_ok_of_encode rfl rfl

end Sys2Proof.Machine
end
